-- ==== Sys2Proof/Word.lean ====
section
/-! DEFINITION. The widths of PBAT's values and the names of the three column roles.
Bits are numbered as the spec numbers them: bit k has weight 2^k (R8). Every value is unsigned (R8, R10). -/

namespace Sys2Proof

/-- One byte of the memory space (R59). -/
abbrev Byte := BitVec 8

/-- A 16-bit plane word, set mask or colour-plane pattern (R13, R64). -/
abbrev PlaneWord := BitVec 16

/-- A 32-bit register of the register port (R27, R34 to R36). -/
abbrev Reg := BitVec 32

/-- A 64-bit command word (R90). -/
abbrev Command := BitVec 64

/-- The OP field of a command word (R91). -/
abbrev Opcode := BitVec 4

/-- A 12-bit coordinate slot of form G (R94). -/
abbrev Coord := BitVec 12

/-- A colour index, 0..15 (R91, R97). -/
abbrev Color := BitVec 4

/-- The role in which the column writer composes a column (R161). The fourth ROLE encoding is reserved (R100)
and has no constructor: it is no command. -/
inductive Role where
  /-- the single-column case, encoded 0 -/
  | single
  /-- the start or end column of a multi-column box, encoded 1 -/
  | edge
  /-- an interior column, encoded 2 -/
  | full
  deriving DecidableEq, Repr

/-- The 2-bit encoding of a role (R95). -/
def Role.bits : Role → BitVec 2
  | .single => 0#2
  | .edge => 1#2
  | .full => 2#2

end Sys2Proof
end

