-- ==== Sys2Proof/Syntax.lean ====
section
/-! DEFINITION. The command set PBAT-CMD 1: one constructor per row of spec/opcode_table.json (R2, R98).
The operands are the fields of the command word at the widths of R92 to R95, unsigned and neither scaled nor
extended (R96); their ranges are checked when the command executes, not here (R97). -/

namespace Sys2Proof

/-- A PBAT command. -/
inductive Instr where
  /-- build the translator tables (form N, R92, R121) -/
  | init
  /-- name the framebuffer (form B, R93, R200) -/
  | setfb (base : BitVec 32)
  /-- translate the pixel coordinate (`x1`, `y1`) (form G, R94, R123) -/
  | xlate (x1 : Coord) (y1 : Coord)
  /-- report the edge masks of the span `x1..x2` (form G, R94, R144) -/
  | emask (x1 : Coord) (x2 : Coord)
  /-- one masked 4-plane column write; `mask` is ignored in the role FULL (form W, R95, R165) -/
  | colwr (role : Role) (color : Color) (mask : PlaneWord) (offset : BitVec 16)
  /-- fill the box [x1, x2] × [y1, y2] (form G, R94, R186) -/
  | drawbox (x1 : Coord) (y1 : Coord) (x2 : Coord) (y2 : Coord) (color : Color)
  deriving DecidableEq, Repr

end Sys2Proof
end

