-- ==== Sys2Proof/WellFormed.lean ====
section
/-! DEFINITION. The assembly notation of R103 as abstract syntax, and its check: an operand that does not fit its
field is an assembly error, not a command. The fields of `Instr` have the widths of the command word and `Role` has
no term for the reserved encoding, so EVERY term of `Instr` is well formed; what can be ill formed is a line of the
notation, whose operands are unbounded unsigned integers. -/

namespace Sys2Proof

/-- One line of the spec's assembly notation (R103). `COLWR.FULL` has no mask operand. R104: there are no
pseudo-instructions, so no further form. -/
inductive AsmLine where
  | init
  | setfb (base : Nat)
  | xlate (x y : Nat)
  | emask (x1 x2 : Nat)
  | colwrSingle (offset mask color : Nat)
  | colwrEdge (offset mask color : Nat)
  | colwrFull (offset color : Nat)
  | drawbox (x1 y1 x2 y2 color : Nat)
  /-- a raw command word, `.dword 0x<16 hex digits>` -/
  | dword (word : Nat)
  deriving DecidableEq, Repr

/-- `v` fits an unsigned field of `bits` bits (R103). -/
def fitsField (bits v : Nat) : Bool := decide (v < 2 ^ bits)

/-- Every operand of the line fits its field: 12 bits for a coordinate, 16 for an offset or a mask, 32 for a base,
4 for a colour (R103), 64 for a raw word. A line that fails this is an assembly error. -/
def AsmLine.wellFormed : AsmLine → Bool
  | .init => true
  | .setfb base => fitsField 32 base
  | .xlate x y => fitsField 12 x && fitsField 12 y
  | .emask x1 x2 => fitsField 12 x1 && fitsField 12 x2
  | .colwrSingle offset mask color => fitsField 16 offset && fitsField 16 mask && fitsField 4 color
  | .colwrEdge offset mask color => fitsField 16 offset && fitsField 16 mask && fitsField 4 color
  | .colwrFull offset color => fitsField 16 offset && fitsField 4 color
  | .drawbox x1 y1 x2 y2 color =>
    fitsField 12 x1 && fitsField 12 y1 && fitsField 12 x2 && fitsField 12 y2 && fitsField 4 color
  | .dword word => fitsField 64 word

end Sys2Proof
end

