-- ==== Sys2Proof/Decode.lean ====
section
/-! DEFINITION. The command decoder (R90 to R102), total on every 64-bit word, and after it the encoder and the
assembler of R103. A command is submitted whole through the command port, never fetched from memory, so a word has no
byte order (R64, R79, R90). -/

namespace Sys2Proof

/-- Why a word is no command. Each completes with `IllegalCommand` (R213). -/
inductive Reject where
  /-- `OP` is 0x0 or 0x7..0xF (R100) -/
  | reservedOpcode
  /-- a must-be-zero bit of the opcode's row is 1 (R99) -/
  | mustBeZero
  /-- `COLWR` with `ROLE = 3` (R100) -/
  | reservedRole
  deriving DecidableEq, Repr

/-! ## Fields of a command word (R91 to R96) -/

/-- `OP = w[63:60]`. -/
def opField (w : Command) : Opcode := w.extractLsb' 60 4

/-- `ROLE = w[53:52]`. -/
def roleField (w : Command) : BitVec 2 := w.extractLsb' 52 2

/-- `COLOR = w[51:48]`. -/
def colorField (w : Command) : Color := w.extractLsb' 48 4

/-- `Y2 = w[47:36]`. -/
def y2Field (w : Command) : Coord := w.extractLsb' 36 12

/-- `X2 = w[35:24]`. -/
def x2Field (w : Command) : Coord := w.extractLsb' 24 12

/-- `Y1 = w[23:12]`. -/
def y1Field (w : Command) : Coord := w.extractLsb' 12 12

/-- `X1 = w[11:0]`. -/
def x1Field (w : Command) : Coord := w.extractLsb' 0 12

/-- `BASE = w[31:0]` (R93). -/
def baseField (w : Command) : BitVec 32 := w.extractLsb' 0 32

/-- `MASK = w[31:16]` (R95). -/
def maskField (w : Command) : PlaneWord := w.extractLsb' 16 16

/-- `OFFSET = w[15:0]` (R95). -/
def offsetField (w : Command) : BitVec 16 := w.extractLsb' 0 16

/-- The role a ROLE field names; 3 is reserved (R95, R100). -/
def Role.ofBits (b : BitVec 2) : Option Role :=
  if b = 0#2 then some .single
  else if b = 1#2 then some .edge
  else if b = 2#2 then some .full
  else none

/-- The opcode a command is encoded with (R98). -/
def Instr.opcode : Instr → Opcode
  | .init => 0x1#4
  | .setfb _ => 0x2#4
  | .xlate _ _ => 0x3#4
  | .emask _ _ => 0x4#4
  | .colwr _ _ _ _ => 0x5#4
  | .drawbox _ _ _ _ _ => 0x6#4

/-! ## The decoder -/

/-- The decoder of R102: every word decodes to exactly one result. -/
def decode (w : Command) : Except Reject Instr :=
  if opField w = 0x1#4 then
    if w.extractLsb' 0 60 = 0#60 then .ok .init else .error .mustBeZero
  else if opField w = 0x2#4 then
    if w.extractLsb' 32 28 = 0#28 then .ok (.setfb (baseField w)) else .error .mustBeZero
  else if opField w = 0x3#4 then
    if w.extractLsb' 24 36 = 0#36 then .ok (.xlate (x1Field w) (y1Field w)) else .error .mustBeZero
  else if opField w = 0x4#4 then
    if w.extractLsb' 36 24 = 0#24 ∧ y1Field w = 0#12 then .ok (.emask (x1Field w) (x2Field w))
    else .error .mustBeZero
  else if opField w = 0x5#4 then
    if w.extractLsb' 54 6 = 0#6 ∧ w.extractLsb' 32 16 = 0#16 then
      match Role.ofBits (roleField w) with
      | some role => .ok (.colwr role (colorField w) (maskField w) (offsetField w))
      | none => .error .reservedRole
    else .error .mustBeZero
  else if opField w = 0x6#4 then
    if w.extractLsb' 52 8 = 0#8 then
      .ok (.drawbox (x1Field w) (y1Field w) (x2Field w) (y2Field w) (colorField w))
    else .error .mustBeZero
  else .error .reservedOpcode

/-- The instruction the decoder reads from a table row's word: bit 0 of `w` is the least significant bit of the one
64-bit command word, and every bit at or above `nbits` is 0. -/
def decodeTableWord (nbits w : Nat) : Option Instr :=
  (decode (BitVec.ofNat 64 (w % 2 ^ nbits))).toOption

/-! ## The encoder -/

/-- The command word of an instruction, its fields laid out from bit 63 down as R92 to R95 draw them. -/
def encode : Instr → Command
  | .init => 0x1#4 ++ 0#60
  | .setfb base => 0x2#4 ++ 0#28 ++ base
  | .xlate x1 y1 => 0x3#4 ++ 0#36 ++ y1 ++ x1
  | .emask x1 x2 => 0x4#4 ++ 0#24 ++ x2 ++ 0#12 ++ x1
  | .colwr role color mask offset => 0x5#4 ++ 0#6 ++ role.bits ++ color ++ 0#16 ++ mask ++ offset
  | .drawbox x1 y1 x2 y2 color => 0x6#4 ++ 0#8 ++ color ++ y2 ++ x2 ++ y1 ++ x1

/-! ## The opcode map -/

/-- A row of the match and mask table of R98 (spec/opcode_table.json): a word matches it when
`w &&& mask = pattern`. -/
structure OpcodeRow where
  mnemonic : String
  pattern : Command
  mask : Command
  deriving DecidableEq, Repr

/-- The match and mask table of R98, in the table's order. -/
def opcodeTable : List OpcodeRow :=
  [ ⟨"INIT", 0x1000000000000000#64, 0xFFFFFFFFFFFFFFFF#64⟩,
    ⟨"SETFB", 0x2000000000000000#64, 0xFFFFFFFF00000000#64⟩,
    ⟨"XLATE", 0x3000000000000000#64, 0xFFFFFFFFFF000000#64⟩,
    ⟨"EMASK", 0x4000000000000000#64, 0xFFFFFFF000FFF000#64⟩,
    ⟨"COLWR", 0x5000000000000000#64, 0xFFC0FFFF00000000#64⟩,
    ⟨"DRAWBOX", 0x6000000000000000#64, 0xFFF0000000000000#64⟩ ]

/-- The word matches the row. -/
def OpcodeRow.accepts (row : OpcodeRow) (w : Command) : Bool := w &&& row.mask == row.pattern

/-- The mnemonic of an instruction's row. -/
def Instr.mnemonic : Instr → String
  | .init => "INIT"
  | .setfb _ => "SETFB"
  | .xlate _ _ => "XLATE"
  | .emask _ _ => "EMASK"
  | .colwr _ _ _ _ => "COLWR"
  | .drawbox _ _ _ _ _ => "DRAWBOX"

/-! ## The assembler -/

/-- The word a line of the notation assembles to, or `none` for an assembly error (R103). -/
def AsmLine.assemble (line : AsmLine) : Option Command :=
  if line.wellFormed then
    some <| match line with
      | .init => encode .init
      | .setfb base => encode (.setfb (BitVec.ofNat 32 base))
      | .xlate x y => encode (.xlate (BitVec.ofNat 12 x) (BitVec.ofNat 12 y))
      | .emask x1 x2 => encode (.emask (BitVec.ofNat 12 x1) (BitVec.ofNat 12 x2))
      | .colwrSingle offset mask color =>
        encode (.colwr .single (BitVec.ofNat 4 color) (BitVec.ofNat 16 mask) (BitVec.ofNat 16 offset))
      | .colwrEdge offset mask color =>
        encode (.colwr .edge (BitVec.ofNat 4 color) (BitVec.ofNat 16 mask) (BitVec.ofNat 16 offset))
      | .colwrFull offset color =>
        encode (.colwr .full (BitVec.ofNat 4 color) 0#16 (BitVec.ofNat 16 offset))
      | .drawbox x1 y1 x2 y2 color =>
        encode (.drawbox (BitVec.ofNat 12 x1) (BitVec.ofNat 12 y1) (BitVec.ofNat 12 x2) (BitVec.ofNat 12 y2)
          (BitVec.ofNat 4 color))
      | .dword word => BitVec.ofNat 64 word
  else none

end Sys2Proof
end

