-- ==== Sys2Proof/Config.lean ====
section
/-! DEFINITION. What an implementation of PBAT fixes (R4, R34), and the values the spec leaves open.

The two parameters `ADDR_W` and `EDGE_MODE` are data: the machine's state carries them in its CONFIG register, no
step changes them, and a statement for every state is a statement for every value of both (R4: "A model takes
ADDR_W and EDGE_MODE as arguments"). The free values are opaque: nothing can evaluate one or prove a value of it. -/

namespace Sys2Proof

/-- The parameter `EDGE_MODE` (R4): how the column writer composes a partly covered column (R162, R163). -/
inductive EdgeMode where
  | masked
  | literal
  deriving DecidableEq, Repr

/-- The parameter `ADDR_W`, the width in bits of a byte address of the memory port: 15 ≤ `ADDR_W` ≤ 32 (R4). -/
abbrev AddrW := { n : Nat // 15 ≤ n ∧ n ≤ 32 }

/-- The implementation parameters, as CONFIG shows them (R34). -/
structure Params where
  edgeMode : EdgeMode
  addrW : AddrW
  deriving DecidableEq, Repr

/-- One entry of the column table (R38). -/
structure ColEntry where
  byteOffset : BitVec 8
  bitColumn : BitVec 4
  deriving DecidableEq, Repr, Inhabited

/-- The parameters of the machine `State.reset` builds: `EDGE_MODE = MASKED`, which R4 gives this hardware, and
`ADDR_W = 16`, which R4 leaves OPEN. DESIGN CHOICE, unsafe for a statement about `State.reset` alone (log entry 1). -/
def Config.params : Params := { edgeMode := .masked, addrW := ⟨16, by decide⟩ }

/-- The unspecified contents of `ColTable` after the `n`-th draw of a free value: any value (R44, U7, log entry 2). -/
opaque Config.unspecifiedCol : Nat → Fin 320 → ColEntry

/-- The unspecified contents of `RowTable` after the `n`-th draw of a free value: any value (R44, U7, log entry 2). -/
opaque Config.unspecifiedRow : Nat → Fin 200 → BitVec 15

/-- The unconstrained value of a plane word that another agent wrote while the command that touches it was running,
the `n`-th draw of a free value: any 16-bit value (R75, U8, log entry 3). -/
opaque Config.racedWord : Nat → PlaneWord

end Sys2Proof
end

