-- ==== Sys2Proof/Machine/State.lean ====
section
/-! DEFINITION. The state of PBAT as plain data (10_state.md), the reasons a step can stop, and the state after reset
(R45, R240). The host of the spec (R7) is in the state as the list of the inputs it is still going to give the
block, in order, and the list of the replies it has had. -/

namespace Sys2Proof.Machine

/-- The status codes of R210. Codes 6 and 7 are never written (R32, U15) and have no constructor
(DEDUCED, safe, log entry 15). -/
inductive ErrCode where
  /-- the command completed and had its full effect -/
  | ok
  /-- a coordinate or offset outside the addressable grid (R211) -/
  | outOfRange
  /-- x1 > x2, or y2 < y1 (R212) -/
  | invalidGeometry
  /-- a word that decodes to no command (R213) -/
  | illegalCommand
  /-- a command that needs the translator tables before `INIT` (R214) -/
  | notInitialised
  /-- no valid framebuffer, or an invalid `SETFB` base (R215) -/
  | badSurface
  deriving DecidableEq, Repr

/-- What the engine holds while a command runs: RUNNING(w, k) of R43, and what the manual only implies. -/
structure Running where
  /-- the accepted command word `w` -/
  word : Command
  /-- `k`, the memory accesses of the command already performed -/
  done : Nat
  /-- the plane word the command read last, from which the next masked write is composed (R164; log entry 4) -/
  latch : PlaneWord
  /-- the addresses of the plane words of the command that another agent has written since acceptance (R75) -/
  raced : List Nat
  deriving DecidableEq, Repr

/-- The engine state (R43). -/
inductive Engine where
  | idle
  | running (r : Running)
  deriving DecidableEq, Repr

/-- One thing the outside world does to the block (R250), in the order it happens. DESIGN CHOICE, safe (log entries 7
and 12). -/
inductive Input where
  /-- the synchronous call of the source (R2, R227): `Submit(w)`, and nothing else until the command has completed -/
  | command (w : Command)
  /-- `Submit(w)` alone (R20): other inputs may land while the command runs -/
  | submit (w : Command)
  /-- time passes: the engine makes one memory access or the completion update (R43) -/
  | engine
  /-- `ReadReg(off)` (R21) -/
  | readReg (off : Nat)
  /-- the host, or another agent, reads one byte of memory -/
  | readByte (addr : Nat)
  /-- the host, or another agent, writes one byte of memory -/
  | writeByte (addr : Nat) (value : Byte)
  /-- reset is asserted (R23) and released (R244) in one instant (log entry 18) -/
  | reset
  deriving DecidableEq, Repr

/-- What the host has been given back. -/
inductive Reply where
  | register (off : Nat) (value : Reg)
  | byte (addr : Nat) (value : Byte)
  deriving DecidableEq, Repr

/-- The memory space (R59): the bytes that differ from what an unlisted address reads as, by rising address. -/
abbrev Memory := List Host.Cell

/-- The state of the machine. The constant tables `START`, `END` and `PLANE` (R40 to R42) hold the same contents in
every state and are definitions (`startMask`, `endMask`, `planePattern`), not fields (DEDUCED, safe, log entry 14). -/
structure State where
  /-- `CONFIG` (R34): the parameters, which no step changes -/
  params : Params
  /-- the engine state (R43); `STATUS.BUSY` is read from it (R28) -/
  engine : Engine
  /-- `STATUS.INIT_DONE` (R29) -/
  initDone : Bool
  /-- `STATUS.FB_VALID` (R30) -/
  fbValid : Bool
  /-- `STATUS.ANYERR` (R31) -/
  anyErr : Bool
  /-- `STATUS.ERR` (R32) -/
  err : ErrCode
  /-- `STATUS.LASTOP` (R33) -/
  lastOp : Opcode
  /-- `FB_BASE` (R35) -/
  fbBase : Reg
  /-- `RES0` (R36) -/
  res0 : Reg
  /-- `RES1` (R36) -/
  res1 : Reg
  /-- `RES2` (R36) -/
  res2 : Reg
  /-- `RES3` (R36) -/
  res3 : Reg
  /-- `ColTable` (R38) -/
  colTable : Vector ColEntry 320
  /-- `RowTable` (R39) -/
  rowTable : Vector (BitVec 15) 200
  /-- the memory behind the memory port (R22, R59, R70) -/
  mem : Memory
  /-- what the outside world will do next, first first (R250) -/
  inputs : List Input
  /-- what the host has been given back, newest first (R21, R250) -/
  replies : List Reply
  /-- the MODEL's own field: how many free values have been drawn (log entries 2, 3 and 10) -/
  fresh : Nat
  deriving DecidableEq, Repr

/-- The reasons the machine stops. -/
inductive Fault where
  /-- Raised by a command's memory access whose address the memory port does not have: odd, or not inside
  `0 .. 2^ADDR_W - 1` (R22). Safe: R68, R81 and R200 rule it out, and no state that meets `State.Inv` raises it (log entry 9). -/
  | portAddress
  /-- Raised by an `Input.readByte` or `Input.writeByte` whose address is not inside the memory space of
  `2^ADDR_W` bytes (R59). Safe: there is no such byte (log entry 9). -/
  | noSuchByte
  deriving DecidableEq, Repr

/-- The reasons the model gives no meaning. -/
inductive Refusal where
  /-- Raised by `exec` for an instruction the model has no meaning for; no arm raises it. Safe. -/
  | notModelled (mnemonic : String)
  deriving DecidableEq, Repr

/-- The state after reset of the machine with parameters `p` (R45): every register at the value R45 gives, the
translator tables unspecified (R44), drawn as free value number `fresh`, and memory with nothing listed. -/
def State.resetWith (p : Params) (fresh : Nat) : State where
  params := p
  engine := .idle
  initDone := false
  fbValid := false
  anyErr := false
  err := .ok
  lastOp := 0#4
  fbBase := 0#32
  res0 := 0#32
  res1 := 0#32
  res2 := 0#32
  res3 := 0#32
  colTable := Vector.ofFn (Config.unspecifiedCol fresh)
  rowTable := Vector.ofFn (Config.unspecifiedRow fresh)
  mem := []
  inputs := []
  replies := []
  fresh := fresh + 1

/-- The machine right after reset, nothing submitted yet. -/
def State.reset : State := State.resetWith Config.params 0

end Sys2Proof.Machine
end

