-- ==== Sys2Proof/Machine/Operands.lean ====
section
/-! DEFINITION. The operand forms: the range checks of R97, the constant tables `START`, `END` and `PLANE` (R40 to R42),
the edge-mask generator (R143), the translator tables and the coordinate translator (R120, R122), the composition of a
plane word (R162, R163), and the address model of a pixel (R61 to R63). -/

namespace Sys2Proof.Machine

/-! ## Range checks (R97, R211) -/

/-- The pixel column a coordinate slot names, `none` when it is 320 or more (R4, R211). -/
def pixelX (v : Coord) : Option (Fin 320) := if h : v.toNat < 320 then some ⟨v.toNat, h⟩ else none

/-- The scanline a coordinate slot names, `none` when it is 200 or more (R4, R211). -/
def pixelY (v : Coord) : Option (Fin 200) := if h : v.toNat < 200 then some ⟨v.toNat, h⟩ else none

/-- An OFFSET operand names the first byte of a column: a multiple of 8, at most 31992 (R165). -/
def columnStart (off : BitVec 16) : Bool := decide (off.toNat % 8 = 0 ∧ off.toNat ≤ 31992)

/-- A base names a framebuffer: even, and its 32000 bytes lie below `2^ADDR_W`, the sum exact (R200). -/
def surfaceFits (p : Params) (base : BitVec 32) : Bool :=
  decide (base.toNat % 2 = 0 ∧ base.toNat + 32000 ≤ 2 ^ p.addrW.val)

/-! ## Constant tables -/

/-- `START[p] = 0xFFFF >> p`: the pixels p..15 (R40, R140). -/
def startMask (p : Fin 16) : PlaneWord := 0xFFFF#16 >>> p.val

/-- `END[p] = (0xFFFF << (15-p)) & 0xFFFF`: the pixels 0..p (R41, R141). -/
def endMask (p : Fin 16) : PlaneWord := 0xFFFF#16 <<< (15 - p.val)

/-- `CLRINV(m) = ~m`: the pixels outside the shape (R142). -/
def clearInverse (m : PlaneWord) : PlaneWord := ~~~m

/-- `PLANE[c][i]`: all ones when bit i of the colour index is 1, else all zeros (R42, R160). -/
def planePattern (c : Color) (i : Fin 4) : PlaneWord := if c.getLsbD i.val then 0xFFFF#16 else 0x0000#16

/-! ## The edge-mask generator -/

/-- What the edge-mask generator gives for a span (R143), under the rule's names. -/
structure EdgeMasks where
  sp : Fin 16
  ep : Fin 16
  sc : Fin 20
  ec : Fin 20
  sm : PlaneWord
  em : PlaneWord
  cm : PlaneWord
  wc : Nat
  deriving DecidableEq, Repr

/-- `x mod 16`, the pixel within its column (R143). -/
def intraPixel (x : Fin 320) : Fin 16 := ⟨x.val % 16, by omega⟩

/-- `x div 16`, the column index (R143). -/
def columnIndex (x : Fin 320) : Fin 20 := ⟨x.val / 16, by omega⟩

/-- `EdgeMasks(x1, x2)` (R143). -/
def edgeMasks (x1 x2 : Fin 320) : EdgeMasks where
  sp := intraPixel x1
  ep := intraPixel x2
  sc := columnIndex x1
  ec := columnIndex x2
  sm := startMask (intraPixel x1)
  em := endMask (intraPixel x2)
  cm := startMask (intraPixel x1) &&& endMask (intraPixel x2)
  wc := (columnIndex x2).val - (columnIndex x1).val

/-! ## The coordinate translator -/

/-- The column table `BuildTables` writes: entry `c*16 + j` is `{c*8, j}` (R38, R120). -/
def builtColTable : Vector ColEntry 320 :=
  Vector.ofFn fun s =>
    { byteOffset := BitVec.ofNat 8 (s.val / 16 * 8), bitColumn := BitVec.ofNat 4 (s.val % 16) }

/-- The scanline base table `BuildTables` writes: entry `r` is `r*160` (R39, R120). -/
def builtRowTable : Vector (BitVec 15) 200 := Vector.ofFn fun r => BitVec.ofNat 15 (r.val * 160)

/-- `RowTable[y] + ColTable[x].byteOffset`, exact (R10): the offset in the framebuffer of the first byte of the
column that holds pixel (x, y) (R122, R182, R183). -/
def columnOffset (s : State) (x : Fin 320) (y : Fin 200) : Nat :=
  s.rowTable[y].toNat + s.colTable[x].byteOffset.toNat

/-- The result of `translate` (R13, R122). -/
structure PixelAddress where
  byteOffset : BitVec 15
  bitColumn : BitVec 4
  deriving DecidableEq, Repr

/-- `Translate(x, y)` (R122). -/
def translatePixel (s : State) (x : Fin 320) (y : Fin 200) : PixelAddress where
  byteOffset := BitVec.ofNat 15 (columnOffset s x y)
  bitColumn := s.colTable[x].bitColumn

/-! ## Composition of one plane word -/

/-- `compose_MASKED` (R162): bits inside the mask take the colour's bit, bits outside keep theirs. -/
def composeMasked (role : Role) (p m c : PlaneWord) : PlaneWord :=
  match role with
  | .full => c
  | .single => (p &&& ~~~m) ||| (c &&& m)
  | .edge => (p &&& ~~~m) ||| (c &&& m)

/-- `compose_LITERAL` (R163): the formulas of the source's §4.2 as they are written. -/
def composeLiteral (role : Role) (i : Fin 4) (p m c : PlaneWord) : PlaneWord :=
  match role with
  | .full => c
  | .single => (p &&& ~~~(clearInverse m &&& ~~~c)) ||| (m &&& c)
  | .edge => if i.val < 2 then p ||| (m &&& c) else p &&& ~~~(clearInverse m &&& ~~~c)

/-- The composition the parameter `EDGE_MODE` selects (R162, R163). -/
def compose (mode : EdgeMode) (role : Role) (i : Fin 4) (p m c : PlaneWord) : PlaneWord :=
  match mode with
  | .masked => composeMasked role p m c
  | .literal => composeLiteral role i p m c

/-! ## The address model of the framebuffer -/

/-- `PlaneAddr(x, y, i)` (R61): where the plane word holding pixel (x, y)'s bit of plane i starts. -/
def planeAddr (s : State) (x : Fin 320) (y : Fin 200) (i : Fin 4) : Nat :=
  s.fbBase.toNat + y.val * 160 + x.val / 16 * 8 + 2 * i.val

/-- The number of the bit that pixel x has in each of its four plane words (R62). -/
def pixelBit (x : Fin 320) : Nat := 15 - x.val % 16

end Sys2Proof.Machine
end

