-- ==== Sys2Proof/Machine/Flags.lean ====
section
/-! DEFINITION. The registers as the register port shows them: the fields of `STATUS` (R27 to R33), of `CONFIG` (R34) and of
the result registers (R36), and the register map (R37). -/

namespace Sys2Proof.Machine

/-- The 3-bit code of R210. -/
def ErrCode.code : ErrCode → BitVec 3
  | .ok => 0#3
  | .outOfRange => 1#3
  | .invalidGeometry => 2#3
  | .illegalCommand => 3#3
  | .notInitialised => 4#3
  | .badSurface => 5#3

/-- `STATUS.BUSY`: 1 exactly when the engine is RUNNING (R28, R43). -/
def State.busy (s : State) : Bool :=
  match s.engine with
  | .idle => false
  | .running _ => true

/-- `STATUS.ANYERR` after a completion with `code`: set by a code other than OK, kept by OK (R31). -/
def stickyError (before : Bool) (code : ErrCode) : Bool := before || decide (code ≠ .ok)

/-- The `STATUS` register (R27): reserved bits read 0. -/
def State.statusReg (s : State) : Reg :=
  0#20 ++ s.lastOp ++ 0#1 ++ s.err.code ++ BitVec.ofBool s.anyErr ++ BitVec.ofBool s.fbValid
    ++ BitVec.ofBool s.initDone ++ BitVec.ofBool s.busy

/-- The `EDGE_MODE` bit of `CONFIG` (R34). -/
def edgeModeBit : EdgeMode → BitVec 1
  | .masked => 0#1
  | .literal => 1#1

/-- The `CONFIG` register (R34): reserved bits read 0. -/
def State.configReg (s : State) : Reg :=
  0#18 ++ BitVec.ofNat 6 s.params.addrW.val ++ 0#7 ++ edgeModeBit s.params.edgeMode

/-- `ReadReg(off)` (R37): an offset that names no register reads 0. -/
def State.readReg (s : State) (off : Nat) : Reg :=
  if off = 0x00 then s.statusReg
  else if off = 0x04 then s.configReg
  else if off = 0x08 then s.fbBase
  else if off = 0x0C then s.res0
  else if off = 0x10 then s.res1
  else if off = 0x14 then s.res2
  else if off = 0x18 then s.res3
  else 0#32

/-- `RES0` after `XLATE`: `zext_32({col[3:0], 0b0, off[14:0]})` (R36, R123). -/
def packAddress (a : PixelAddress) : Reg := 0#12 ++ a.bitColumn ++ 0#1 ++ a.byteOffset

/-- A result register holding an edge-mask pair: the set mask low, its clear-mask-inverse high (R36, R144). -/
def packMasks (m : PlaneWord) : Reg := clearInverse m ++ m

/-- `RES3` after `EMASK` (R36, R144). -/
def packSpan (e : EdgeMasks) : Reg :=
  0#3 ++ BitVec.ofNat 5 e.ec.val ++ 0#3 ++ BitVec.ofNat 5 e.sc.val ++ BitVec.ofNat 4 e.ep.val
    ++ BitVec.ofNat 4 e.sp.val ++ 0#3 ++ BitVec.ofNat 5 e.wc

end Sys2Proof.Machine
end

