-- ==== Sys2Proof/Machine/Ops.lean ====
section
/-! DEFINITION. The shared operations: bytes and plane words of memory (R64), the accesses of the memory port (R22, R164),
acceptance and the completion update with the raising of an error (R20, R218, R219), the run of a whole command, and
what reset does (R240 to R242). -/

namespace Sys2Proof.Machine

/-! ## Memory -/

/-- What an address that memory does not list reads as. DESIGN CHOICE, unsafe: the spec gives no contents of memory
before anything is written (log entry 5). -/
def unlistedByte : Byte := 0#8

/-- The byte at `addr`. -/
def Memory.readByte : Memory → Nat → Byte
  | [], _ => unlistedByte
  | (a, v) :: rest, addr => if a = addr then v else Memory.readByte rest addr

/-- Forget what is listed for `addr`. -/
def Memory.erase (m : Memory) (addr : Nat) : Memory := m.filter fun c => decide (c.1 ≠ addr)

/-- List `v` for `addr`, before the first greater address. -/
def Memory.insert : Memory → Nat → Byte → Memory
  | [], addr, v => [(addr, v)]
  | (a, u) :: rest, addr, v => if addr < a then (addr, v) :: (a, u) :: rest else (a, u) :: Memory.insert rest addr v

/-- Store `v` at `addr`; a byte equal to what an unlisted address reads as is not listed. -/
def Memory.writeByte (m : Memory) (addr : Nat) (v : Byte) : Memory :=
  if v = unlistedByte then Memory.erase m addr else Memory.insert (Memory.erase m addr) addr v

/-- `MemRead(a, 2)`: big-endian, `(mem[a] << 8) | mem[a+1]` (R64). -/
def Memory.readWord (m : Memory) (addr : Nat) : PlaneWord :=
  Memory.readByte m addr ++ Memory.readByte m (addr + 1)

/-- `MemWrite(a, 2, v)`: big-endian, `mem[a] <- v[15:8]; mem[a+1] <- v[7:0]` (R64). -/
def Memory.writeWord (m : Memory) (addr : Nat) (v : PlaneWord) : Memory :=
  Memory.writeByte (Memory.writeByte m addr (v.extractLsb' 8 8)) (addr + 1) (v.extractLsb' 0 8)

/-- The canonical form: addresses strictly rising, and no byte listed that an unlisted address reads as. -/
abbrev Memory.wf (m : Memory) : Prop :=
  m.Pairwise (fun c d => c.1 < d.1) ∧ ∀ c ∈ m, c.2 ≠ unlistedByte

/-! ## The memory port -/

/-- One access of the memory port, one plane word wide (R67), at a byte address. -/
inductive Access where
  /-- read the plane word and hold it -/
  | read (addr : Nat)
  /-- write the plane word `v` -/
  | write (addr : Nat) (v : PlaneWord)
  /-- write what `compose` makes of the word held, the set mask and the pattern (R164) -/
  | merge (addr : Nat) (role : Role) (plane : Fin 4) (mask pattern : PlaneWord)
  deriving DecidableEq, Repr

/-- The byte address of an access. -/
def Access.addr : Access → Nat
  | .read a => a
  | .write a _ => a
  | .merge a _ _ _ _ => a

/-- The access stores to memory. -/
def Access.isWrite : Access → Bool
  | .read _ => false
  | .write _ _ => true
  | .merge _ _ _ _ _ => true

/-- The memory port has a plane word at `addr`: even, and inside the space of `2^ADDR_W` bytes (R22, R59). -/
def portHas (p : Params) (addr : Nat) : Bool := decide (addr % 2 = 0 ∧ addr + 2 ≤ 2 ^ p.addrW.val)

/-- What an access reads and changes: memory, the word the command holds, and the count of free values drawn. -/
structure Port where
  mem : Memory
  latch : PlaneWord
  fresh : Nat
  deriving DecidableEq, Repr

/-- Store the plane word `v` at `addr`. A word that another agent wrote while this command was running ends with an
unconstrained value: a free value is stored (R75, U8). -/
def Port.store (raced : List Nat) (addr : Nat) (v : PlaneWord) (p : Port) : Port :=
  if addr ∈ raced then
    { p with mem := Memory.writeWord p.mem addr (Config.racedWord p.fresh), fresh := p.fresh + 1 }
  else { p with mem := Memory.writeWord p.mem addr v }

/-- Perform one access (R11, R164) of plain memory that always answers (R70, R71; log entry 17). -/
def Port.perform (mode : EdgeMode) (raced : List Nat) (p : Port) : Access → Port
  | .read a => { p with latch := Memory.readWord p.mem a }
  | .write a v => p.store raced a v
  | .merge a role i m c => p.store raced a (compose mode role i p.latch m c)

/-- Perform accesses in order, each completing before the next is issued (R73). -/
def Port.performAll (mode : EdgeMode) (raced : List Nat) (p : Port) (xs : List Access) : Port :=
  xs.foldl (Port.perform mode raced) p

/-- The port of a command just accepted: nothing has been read yet. -/
def State.port (s : State) : Port := { mem := s.mem, latch := 0#16, fresh := s.fresh }

/-- The column write of R164: the accesses it makes to the four plane words of the column whose first byte is at
offset `off` of the framebuffer. FULL makes no reads. -/
def columnWrite (s : State) (off : Nat) (m : PlaneWord) (c : Color) (role : Role) : List Access :=
  [0, 1, 2, 3].flatMap fun i : Fin 4 =>
    let a := s.fbBase.toNat + off + 2 * i.val
    if role = .full then [.write a (planePattern c i)]
    else [.read a, .merge a role i m (planePattern c i)]

/-! ## Checks, effect and completion -/

/-- The register writes a command makes when it completes OK (R219). -/
inductive Effect where
  | none
  /-- the translator tables are built and `INIT_DONE` set (R121) -/
  | tables
  /-- `FB_BASE` is written and `FB_VALID` set (R200) -/
  | surface (base : Reg)
  /-- `RES0` is written (R123) -/
  | result (r0 : Reg)
  /-- `RES0` to `RES3` are written (R144) -/
  | results (r0 r1 r2 r3 : Reg)
  deriving DecidableEq, Repr

/-- What a command rule says: it raises an error, or it makes its memory accesses in this order and then its register
writes. Every check precedes every access (R217, R218). -/
inductive Verdict where
  | raise (e : ErrCode)
  | proceed (accesses : List Access) (effect : Effect)
  deriving DecidableEq, Repr

/-- The memory accesses a verdict makes: none when an error is raised (R218). -/
def Verdict.accesses : Verdict → List Access
  | .raise _ => []
  | .proceed xs _ => xs

/-- Apply a command's register writes. -/
def State.applyEffect (s : State) : Effect → State
  | .none => s
  | .tables => { s with colTable := builtColTable, rowTable := builtRowTable, initDone := true }
  | .surface base => { s with fbBase := base, fbValid := true }
  | .result r0 => { s with res0 := r0 }
  | .results r0 r1 r2 r3 => { s with res0 := r0, res1 := r1, res2 := r2, res3 := r3 }

/-- The STATUS part of the completion update (R219): `ERR`, `LASTOP`, `ANYERR`, `BUSY` and the engine state. -/
def State.finish (s : State) (op : Opcode) (code : ErrCode) : State :=
  { s with err := code, lastOp := op, anyErr := stickyError s.anyErr code, engine := .idle }

/-- `raise e` of R11 and R218: the command ends with code `e`, no register but the STATUS fields changed, no access
made. This is PBAT's only exception: there is no trap, no handler and no return (R220). -/
def State.raiseError (s : State) (op : Opcode) (e : ErrCode) : State := s.finish op e

/-- `complete(OK)` of R219: the register writes and the STATUS fields, one atomic update. -/
def State.complete (s : State) (op : Opcode) (eff : Effect) : State := (s.applyEffect eff).finish op .ok

/-- Perform all accesses of a command with nothing else touching memory. -/
def State.performAccesses (s : State) (xs : List Access) : State :=
  let p := s.port.performAll s.params.edgeMode [] xs
  { s with mem := p.mem, fresh := p.fresh }

/-- The run of a whole command, from acceptance to its completion, undisturbed: the accesses of its verdict in their
order and then the completion update (R73, R219), or the raising of its error. A port address outside the port stops
the machine (R22; log entry 9). The engine of `s` is taken as idle (log entry 8). -/
def runCommand (op : Opcode) (v : Verdict) (s : State) : Host.Outcome State Fault Refusal :=
  match v with
  | .raise e => .next (s.raiseError op e)
  | .proceed xs eff =>
    if xs.all (fun x => portHas s.params x.addr) then .next ((s.performAccesses xs).complete op eff)
    else .fault .portAddress

/-- Acceptance of a submitted word (R20, R43): IDLE to RUNNING(w, 0). -/
def State.accept (s : State) (w : Command) : State :=
  { s with engine := .running { word := w, done := 0, latch := 0#16, raced := [] } }

/-! ## The host's transactions and reset -/

/-- Take the input at the head of the list. -/
def State.dropInput (s : State) : State := { s with inputs := s.inputs.tail }

/-- `ReadReg(off)`: the value goes to the host, and nothing else happens (R21). -/
def State.hostReadReg (s : State) (off : Nat) : State :=
  { s with replies := .register off (s.readReg off) :: s.replies }

/-- The memory space has a byte at `addr` (R59). -/
def spaceHas (p : Params) (addr : Nat) : Bool := decide (addr < 2 ^ p.addrW.val)

/-- Another agent reads one byte: plain memory, no side effect (R70). -/
def State.hostReadByte (s : State) (addr : Nat) : Host.Outcome State Fault Refusal :=
  if spaceHas s.params addr then .next { s with replies := .byte addr (Memory.readByte s.mem addr) :: s.replies }
  else .fault .noSuchByte

/-- The address of the plane word, among those the accesses touch, that holds the byte at `addr`. -/
def touchedWord (xs : List Access) (addr : Nat) : Option Nat :=
  (xs.map Access.addr).find? fun a => decide (a ≤ addr ∧ addr < a + 2)

/-- Another agent writes one byte while `r` runs with the accesses `xs`: a byte of a plane word the command touches
leaves that word unconstrained, now and at the command's own write of it (R75, U8); any other byte is plain memory. -/
def State.disturb (s : State) (r : Running) (xs : List Access) (addr : Nat) (v : Byte) : State :=
  match touchedWord xs addr with
  | some a =>
    { s with
      mem := Memory.writeWord s.mem a (Config.racedWord s.fresh)
      fresh := s.fresh + 1
      engine := .running { r with raced := a :: r.raced } }
  | none => { s with mem := Memory.writeByte s.mem addr v }

/-- Reset (R240 to R242): every register at its reset value, the engine idle, the translator tables unspecified again,
the parameters and memory untouched. The host's pending inputs and its replies are not PBAT state (log entry 13).
Assertion and release are one instant, and the next input acts at once: the spec is silent on what is submitted while
reset is held (R244). DESIGN CHOICE, unsafe (log entry 18). -/
def State.assertReset (s : State) : State :=
  { State.resetWith s.params s.fresh with mem := s.mem, inputs := s.inputs, replies := s.replies }

end Sys2Proof.Machine
end

