-- ==== Sys2Proof/Machine/ColumnWriter.lean ====
section
/-! DEFINITION. The column writer's command: COLWR (42_column_writer.md). -/

namespace Sys2Proof.Machine

/-- `COLWR role, off, M, c` (R165): it does not need `INIT_DONE`. -/
def checkColwr (role : Role) (c : Color) (m : PlaneWord) (off : BitVec 16) (s : State) : Verdict :=
  if s.fbValid = false then .raise .badSurface
  else if columnStart off then .proceed (columnWrite s off.toNat m c role) .none
  else .raise .outOfRange

/-- `COLWR role, off, M, c` (R165). -/
def execColwr (role : Role) (c : Color) (m : PlaneWord) (off : BitVec 16) (s : State) :
    Host.Outcome State Fault Refusal :=
  runCommand 0x5#4 (checkColwr role c m off s) s

end Sys2Proof.Machine
end

