-- ==== Sys2Proof/Machine/MaskGenerator.lean ====
section
/-! DEFINITION. The edge-mask generator's command: EMASK (41_edge_masks.md). -/

namespace Sys2Proof.Machine

/-- `EMASK x1, x2` (R144): it needs neither `INIT_DONE` nor `FB_VALID`, and makes no memory access. -/
def checkEmask (x1 x2 : Coord) : Verdict :=
  match pixelX x1, pixelX x2 with
  | some x1, some x2 =>
    if x1 > x2 then .raise .invalidGeometry
    else
      let e := edgeMasks x1 x2
      .proceed [] (.results (packMasks e.sm) (packMasks e.em) (packMasks e.cm) (packSpan e))
  | _, _ => .raise .outOfRange

/-- `EMASK x1, x2` (R144). -/
def execEmask (x1 x2 : Coord) (s : State) : Host.Outcome State Fault Refusal :=
  runCommand 0x4#4 (checkEmask x1 x2) s

end Sys2Proof.Machine
end

