-- ==== Sys2Proof/Machine/Rasterizer.lean ====
section
/-! DEFINITION. The masked rectangle rasterizer: DRAWBOX (43_rasterizer.md). -/

namespace Sys2Proof.Machine

/-- The column writes of one scanline, left to right (R182 to R185). -/
def scanlineWrites (s : State) (x1 x2 : Fin 320) (c : Color) (y : Fin 200) : List Access :=
  let e := edgeMasks x1 x2
  if e.wc = 0 then columnWrite s (columnOffset s x1 y) e.cm c .single
  else
    columnWrite s (columnOffset s x1 y) e.sm c .edge
      ++ (List.range (e.wc - 1)).flatMap (fun k =>
          columnWrite s (s.rowTable[y].toNat + (e.sc.val + (k + 1)) * 8) 0#16 c .full)
      ++ columnWrite s (columnOffset s x2 y) e.em c .edge

/-- The scanlines a box draws, in increasing order: none when y1 = y2, else y1, y1+1, …, y2 (R180, R185). The loop
variable `line` runs from 0 to numLines = y2 - y1 (R186). -/
def boxScanlines (y1 y2 : Fin 200) : List (Fin 200) :=
  if y2 = y1 then []
  else (List.range (y2.val - y1.val + 1)).map fun line => Fin.ofNat 200 (y1.val + line)

/-- `DRAWBOX x1, y1, x2, y2, c` (R186). Every check precedes the first access, and the no-op of y1 = y2 comes after
every check. -/
def checkDrawbox (x1 y1 x2 y2 : Coord) (c : Color) (s : State) : Verdict :=
  if s.initDone = false then .raise .notInitialised
  else if s.fbValid = false then .raise .badSurface
  else
    match pixelX x1, pixelX x2, pixelY y1, pixelY y2 with
    | some x1, some x2, some y1, some y2 =>
      if x1 > x2 ∨ y2 < y1 then .raise .invalidGeometry
      else .proceed ((boxScanlines y1 y2).flatMap (scanlineWrites s x1 x2 c)) .none
    | _, _, _, _ => .raise .outOfRange

/-- `DRAWBOX x1, y1, x2, y2, c` (R186). -/
def execDrawbox (x1 y1 x2 y2 : Coord) (c : Color) (s : State) : Host.Outcome State Fault Refusal :=
  runCommand 0x6#4 (checkDrawbox x1 y1 x2 y2 c s) s

end Sys2Proof.Machine
end

