-- ==== Sys2Proof/Machine/Surface.lean ====
section
/-! DEFINITION. Surface control: SETFB (44_surface_control.md). -/

namespace Sys2Proof.Machine

/-- `SETFB base` (R200): it does not need `INIT_DONE`, and makes no memory access. -/
def checkSetfb (base : BitVec 32) (s : State) : Verdict :=
  if surfaceFits s.params base then .proceed [] (.surface base) else .raise .badSurface

/-- `SETFB base` (R200). -/
def execSetfb (base : BitVec 32) (s : State) : Host.Outcome State Fault Refusal :=
  runCommand 0x2#4 (checkSetfb base s) s

end Sys2Proof.Machine
end

