-- ==== Sys2Proof/Machine/Translator.lean ====
section
/-! DEFINITION. The coordinate translator's commands: INIT and XLATE (40_translator.md). -/

namespace Sys2Proof.Machine

/-- `INIT` (R121): it needs neither `INIT_DONE` nor `FB_VALID`, and makes no memory access. -/
def checkInit : Verdict := .proceed [] .tables

/-- `INIT` (R121). -/
def execInit (s : State) : Host.Outcome State Fault Refusal := runCommand 0x1#4 checkInit s

/-- `XLATE x, y` (R123). -/
def checkXlate (x y : Coord) (s : State) : Verdict :=
  if s.initDone = false then .raise .notInitialised
  else
    match pixelX x, pixelY y with
    | some x, some y => .proceed [] (.result (packAddress (translatePixel s x y)))
    | _, _ => .raise .outOfRange

/-- `XLATE x, y` (R123). -/
def execXlate (x y : Coord) (s : State) : Host.Outcome State Fault Refusal :=
  runCommand 0x3#4 (checkXlate x y s) s

end Sys2Proof.Machine
end

