-- ==== Sys2Proof/Machine/Dispatch.lean ====
section
/-! DEFINITION. The dispatch of a decoded command to its meaning, one arm per constructor of Instr (R102). -/

namespace Sys2Proof.Machine

def exec (i : Instr) (s : State) : Host.Outcome State Fault Refusal :=
  match i with
  | .init => Sys2Proof.Machine.execInit s
  | .setfb base => Sys2Proof.Machine.execSetfb base s
  | .xlate x1 y1 => Sys2Proof.Machine.execXlate x1 y1 s
  | .emask x1 x2 => Sys2Proof.Machine.execEmask x1 x2 s
  | .colwr role color mask offset => Sys2Proof.Machine.execColwr role color mask offset s
  | .drawbox x1 y1 x2 y2 color => Sys2Proof.Machine.execDrawbox x1 y1 x2 y2 color s

end Sys2Proof.Machine
end

