-- ==== Sys2Proof/Machine/Engine.lean ====
section
/-! DEFINITION. The engine access by access (R43): what a word in RUNNING(w, k) does at its next step, the run of a word
from acceptance to completion, and what each input of the outside world does. -/

namespace Sys2Proof.Machine

/-- What the rule of an instruction says in a state: its error, or its accesses and register writes. -/
def verdictOf (i : Instr) (s : State) : Verdict :=
  match i with
  | .init => checkInit
  | .setfb base => checkSetfb base s
  | .xlate x1 y1 => checkXlate x1 y1 s
  | .emask x1 x2 => checkEmask x1 x2
  | .colwr role color mask offset => checkColwr role color mask offset s
  | .drawbox x1 y1 x2 y2 color => checkDrawbox x1 y1 x2 y2 color s

/-- What a command word does: a word that decodes to no command raises `IllegalCommand` (R99, R100, R213, R217). -/
def wordVerdict (w : Command) (s : State) : Verdict :=
  match decode w with
  | .ok i => verdictOf i s
  | .error _ => .raise .illegalCommand

/-- The run of a command word from acceptance to completion, nothing else happening meanwhile (R227). `LASTOP` is the
word's OP field also for a word that is no command (R33). -/
def runWord (w : Command) (s : State) : Host.Outcome State Fault Refusal :=
  match decode w with
  | .ok i => exec i s
  | .error _ => .next (s.raiseError (opField w) .illegalCommand)

/-- The memory access of the running command that comes next, in the order its rule defines (R43, R73). -/
def nextAccess (r : Running) (s : State) : Option Access := (wordVerdict r.word s).accesses[r.done]?

/-- The completion update of the running command (R219). -/
def completeRunning (r : Running) (s : State) : State :=
  match wordVerdict r.word s with
  | .raise e => s.raiseError (opField r.word) e
  | .proceed _ eff => s.complete (opField r.word) eff

/-- One step of a running command: its next memory access, or, when every access has been performed, its completion
update (R43). No access has a duration (log entry 11). -/
def stepRunning (r : Running) (s : State) : Host.Outcome State Fault Refusal :=
  match nextAccess r s with
  | some x =>
    if portHas s.params x.addr then
      let p := Port.perform s.params.edgeMode r.raced { mem := s.mem, latch := r.latch, fresh := s.fresh } x
      .next { s with
        mem := p.mem
        fresh := p.fresh
        engine := .running { r with done := r.done + 1, latch := p.latch } }
    else .fault .portAddress
  | none => .next (completeRunning r s)

/-- One step of the engine; an idle engine does nothing (R229). -/
def stepEngine (s : State) : Host.Outcome State Fault Refusal :=
  match s.engine with
  | .idle => .next s
  | .running r => stepRunning r s

/-- `n` steps of the engine, stopping at the first fault. -/
def runEngine : Nat → State → Host.Outcome State Fault Refusal
  | 0, s => .next s
  | n + 1, s =>
    match stepEngine s with
    | .next t => runEngine n t
    | .fault r => .fault r
    | .refused r => .refused r

/-- A submission (R20): an idle engine takes the head of the inputs, to which `go` gives its meaning; a running one
does not accept, and the host waits while the engine goes on. -/
def whenIdle (s : State) (go : State → Host.Outcome State Fault Refusal) : Host.Outcome State Fault Refusal :=
  match s.engine with
  | .idle => go s.dropInput
  | .running r => stepRunning r s

/-- A byte written by the host or another agent: plain memory while the engine is idle, and R75 while it runs. -/
def hostWriteByte (s : State) (addr : Nat) (v : Byte) : Host.Outcome State Fault Refusal :=
  if spaceHas s.params addr then
    match s.engine with
    | .idle => .next { s with mem := Memory.writeByte s.mem addr v }
    | .running r => .next (s.disturb r (wordVerdict r.word s).accesses addr v)
  else .fault .noSuchByte

/-- One input of the outside world, the head of the inputs (R250). -/
def stepInput (input : Input) (s : State) : Host.Outcome State Fault Refusal :=
  match input with
  | .command w => whenIdle s (runWord w)
  | .submit w => whenIdle s fun t => .next (t.accept w)
  | .engine => stepEngine s.dropInput
  | .readReg off => .next (s.dropInput.hostReadReg off)
  | .readByte addr => s.dropInput.hostReadByte addr
  | .writeByte addr v => hostWriteByte s.dropInput addr v
  | .reset => .next s.dropInput.assertReset

end Sys2Proof.Machine
end

