-- ==== Sys2Proof/Machine/Step.lean ====
section
/-! DEFINITION. One step of the machine, and how a program's word is placed before it. PBAT fetches nothing (R26, R79): the
commands come through the command port, so the step takes the next input of the outside world. -/

namespace Sys2Proof.Machine

/-- One step: the next input of the outside world, or, when there is none, one step of the engine, which waits on
nothing (R252) and does nothing while idle (R229; log entry 16). -/
def step (s : State) : Host.Outcome State Fault Refusal :=
  match s.inputs with
  | [] => stepEngine s
  | input :: _ => stepInput input s

/-- `s` with the table word `w` as the command the host submits next, to an idle engine: the next step runs it. The
host submits commands from outside the machine (R20, log entry 6). -/
def State.withFetchWord (s : State) (nbits w : Nat) : State :=
  { s with engine := .idle, inputs := .command (BitVec.ofNat 64 (w % 2 ^ nbits)) :: s.inputs }

end Sys2Proof.Machine
end

