-- ==== Sys2Proof/Safety.lean ====
section
/-! DEFINITION. The terms in which claims are made: what a state that meets the spec's promises looks like, the colour of a
pixel, and what a command may touch. -/

namespace Sys2Proof.Machine

/-! ## Words that are no command -/

/-- The word has a 1 in a must-be-zero bit of its opcode's row, the bit ranges as R98's table lists them (R99). -/
def setsMustBeZero (w : Command) : Prop :=
  (opField w = 0x1#4 ∧ w.extractLsb 59 0 ≠ 0) ∨
  (opField w = 0x2#4 ∧ w.extractLsb 59 32 ≠ 0) ∨
  (opField w = 0x3#4 ∧ w.extractLsb 59 24 ≠ 0) ∨
  (opField w = 0x4#4 ∧ (w.extractLsb 59 36 ≠ 0 ∨ w.extractLsb 23 12 ≠ 0)) ∨
  (opField w = 0x5#4 ∧ (w.extractLsb 59 54 ≠ 0 ∨ w.extractLsb 47 32 ≠ 0)) ∨
  (opField w = 0x6#4 ∧ w.extractLsb 59 52 ≠ 0)

/-- The word's opcode is reserved: 0x0 or 0x7..0xF (R98, R100). -/
def reservedOpcodeWord (w : Command) : Prop := opField w = 0x0#4 ∨ 0x7 ≤ (opField w).toNat

/-- The word is `COLWR` with `ROLE = 3` (R100). -/
def reservedRoleWord (w : Command) : Prop := opField w = 0x5#4 ∧ w.extractLsb 53 52 = 3#2

/-- The causes of `IllegalCommand` (R213). -/
def illegalWord (w : Command) : Prop := reservedOpcodeWord w ∨ setsMustBeZero w ∨ reservedRoleWord w

/-! ## How a command ends -/

/-- The state after a command that failed with code `e` (R216, R218): as before it but for `ERR`, `LASTOP`, `ANYERR` and
`BUSY`. -/
def State.failedWith (s : State) (op : Opcode) (e : ErrCode) : State :=
  { s with err := e, lastOp := op, anyErr := true, engine := .idle }

/-- The STATUS fields after a command that completed OK (R219): `ANYERR` is kept. -/
def State.doneWith (s : State) (op : Opcode) : State := { s with err := .ok, lastOp := op, engine := .idle }

/-! ## The invariant and the framebuffer -/

/-- The translator tables hold what `BuildTables` writes (R120). -/
def State.tablesBuilt (s : State) : Prop := s.colTable = builtColTable ∧ s.rowTable = builtRowTable

/-- The framebuffer that `FB_BASE` names lies in the memory space at an even address (R35, R200). -/
def State.surfaceOk (s : State) : Prop :=
  s.fbBase.toNat % 2 = 0 ∧ s.fbBase.toNat + 32000 ≤ 2 ^ s.params.addrW.val

/-- The accesses of a command word in a state. -/
def commandAccesses (w : Command) (s : State) : List Access := (wordVerdict w s).accesses

/-- The invariant of the machine: memory is canonical and lies in the memory space; `FB_BASE` names a framebuffer
that lies in the space, also before any `SETFB` (its reset value 0 does, since `ADDR_W ≥ 15`, R35); the tables are
built once `INIT_DONE` is set (R44); and a running command has performed at most the accesses it makes (R43). -/
def State.Inv (s : State) : Prop :=
  Memory.wf s.mem ∧
  (∀ c ∈ s.mem, c.1 < 2 ^ s.params.addrW.val) ∧
  s.surfaceOk ∧
  (s.initDone = true → s.tablesBuilt) ∧
  (∀ r, s.engine = .running r → r.done ≤ (commandAccesses r.word s).length)

/-- The byte at an address (R74). -/
def State.byteAt (s : State) (addr : Nat) : Byte := Memory.readByte s.mem addr

/-- The plane word at an address (R64). -/
def State.wordAt (s : State) (addr : Nat) : PlaneWord := Memory.readWord s.mem addr

/-- Bit i of the colour of pixel (x, y): `(MemRead(PlaneAddr(x, y, i), 2) >> (15 - (x mod 16))) & 1` (R62, R63). -/
def State.pixelPlane (s : State) (x : Fin 320) (y : Fin 200) (i : Fin 4) : Bool :=
  (s.wordAt (planeAddr s x y i)).getLsbD (pixelBit x)

/-- The colour index of pixel (x, y): the sum of `b_i << i` (R63). -/
def State.pixelColor (s : State) (x : Fin 320) (y : Fin 200) : Color :=
  BitVec.ofBool (s.pixelPlane x y 3) ++ BitVec.ofBool (s.pixelPlane x y 2) ++ BitVec.ofBool (s.pixelPlane x y 1)
    ++ BitVec.ofBool (s.pixelPlane x y 0)

/-- The address lies in the framebuffer `FB_BASE .. FB_BASE + 31999` (R60). -/
def State.inSurface (s : State) (addr : Nat) : Prop := s.fbBase.toNat ≤ addr ∧ addr < s.fbBase.toNat + 32000

end Sys2Proof.Machine
end

