-- ==== Sys2Proof/Certificates/Slice0/Obligations.lean ====
section
/-! DEFINITION. The statements about PBAT, each from a numbered rule of spec/ or derived from some. -/

open Sys2Proof Sys2Proof.Machine

/-! ## Encoding (30_encoding.md) -/

/-- Decoding the word of any instruction gives that instruction back, every operand at every value. -/
def Obligations.DecodeOfEncodeIsIdentity : Prop :=
  ∀ i : Instr, decode (encode i) = .ok i

/-- Each command has one word: a word that decodes to an instruction is that instruction's encoding, so no bit of it
is ignored. -/
def Obligations.EncodeOfDecodeIsIdentity : Prop :=
  ∀ (w : Command) (i : Instr), decode w = .ok i → encode i = w

/-- A word is a command exactly when it matches its row of the match and mask table, and for COLWR `w[53:52] ≠ 3`
(R98). -/
def Obligations.DecodeAgreesWithMatchMaskTable : Prop :=
  ∀ w : Command, ∀ row ∈ opcodeTable,
    (row.accepts w = true ∧ (row.mnemonic = "COLWR" → w.extractLsb 53 52 ≠ 3#2)) ↔
      ∃ i, decode w = .ok i ∧ i.mnemonic = row.mnemonic

/-- The words that are no command, and by which name each is rejected (R99, R100, R102, R213). -/
def Obligations.IllegalWordsAreRejectedByName : Prop :=
  ∀ w : Command,
    (decode w = .error .reservedOpcode ↔ reservedOpcodeWord w) ∧
    (decode w = .error .mustBeZero ↔ setsMustBeZero w) ∧
    (decode w = .error .reservedRole ↔ reservedRoleWord w ∧ ¬ setsMustBeZero w)

/-- Every operand is the unsigned integer its field holds, as a quotient and remainder of the whole word (R96). -/
def Obligations.OperandsAreTheirFields : Prop :=
  ∀ w : Command,
    (∀ base, decode w = .ok (.setfb base) → base.toNat = w.toNat % 2 ^ 32) ∧
    (∀ x y, decode w = .ok (.xlate x y) → x.toNat = w.toNat % 2 ^ 12 ∧ y.toNat = w.toNat / 2 ^ 12 % 2 ^ 12) ∧
    (∀ x1 x2, decode w = .ok (.emask x1 x2) → x1.toNat = w.toNat % 2 ^ 12 ∧ x2.toNat = w.toNat / 2 ^ 24 % 2 ^ 12) ∧
    (∀ role c m off, decode w = .ok (.colwr role c m off) →
      role.bits.toNat = w.toNat / 2 ^ 52 % 2 ^ 2 ∧ c.toNat = w.toNat / 2 ^ 48 % 2 ^ 4 ∧
      m.toNat = w.toNat / 2 ^ 16 % 2 ^ 16 ∧ off.toNat = w.toNat % 2 ^ 16) ∧
    (∀ x1 y1 x2 y2 c, decode w = .ok (.drawbox x1 y1 x2 y2 c) →
      x1.toNat = w.toNat % 2 ^ 12 ∧ y1.toNat = w.toNat / 2 ^ 12 % 2 ^ 12 ∧ x2.toNat = w.toNat / 2 ^ 24 % 2 ^ 12 ∧
      y2.toNat = w.toNat / 2 ^ 36 % 2 ^ 12 ∧ c.toNat = w.toNat / 2 ^ 48 % 2 ^ 4)

/-- Words of 95_test_vectors.md section 3, one or more of every opcode, decode as the table there shows. -/
def Obligations.SpecWordsDecode : Prop :=
  decode 0x1000000000000000#64 = .ok .init ∧
  decode 0x2000000000001000#64 = .ok (.setfb 0x1000#32) ∧
  decode 0x3000000000005014#64 = .ok (.xlate 20#12 5#12) ∧
  decode 0x4000000023000014#64 = .ok (.emask 20#12 35#12) ∧
  decode 0x501700000FFF0328#64 = .ok (.colwr .edge 7#4 0x0FFF#16 808#16) ∧
  decode 0x502F0000000001E8#64 = .ok (.colwr .full 15#4 0#16 488#16) ∧
  decode 0x6007006023005014#64 = .ok (.drawbox 20#12 5#12 35#12 6#12 7#4) ∧
  decode 0x600FFFFFFFFFFFFF#64 = .ok (.drawbox 4095#12 4095#12 4095#12 4095#12 15#4) ∧
  decode 0x3000000001005014#64 = .error .mustBeZero ∧
  decode 0x5030000000000000#64 = .error .reservedRole ∧
  decode 0x0000000000000000#64 = .error .reservedOpcode

/-- A line of the notation is an assembly error exactly when an operand does not fit its field: 12 bits for a
coordinate, 16 for an offset or a mask, 32 for a base, 4 for a colour, 64 for a raw word. Every other line assembles to
the word of its instruction with those operands; the MASK field of COLWR.FULL is encoded as 0 (R103). -/
def Obligations.AssembledLineDecodesToItsOperands : Prop :=
  (∃ w, AsmLine.init.assemble = some w ∧ decode w = .ok .init) ∧
  (∀ base, ((AsmLine.setfb base).assemble = none ↔ 2 ^ 32 ≤ base) ∧
    ∀ w, (AsmLine.setfb base).assemble = some w → ∃ b, decode w = .ok (.setfb b) ∧ b.toNat = base) ∧
  (∀ x y, ((AsmLine.xlate x y).assemble = none ↔ 2 ^ 12 ≤ x ∨ 2 ^ 12 ≤ y) ∧
    ∀ w, (AsmLine.xlate x y).assemble = some w → ∃ a b, decode w = .ok (.xlate a b) ∧ a.toNat = x ∧ b.toNat = y) ∧
  (∀ x1 x2, ((AsmLine.emask x1 x2).assemble = none ↔ 2 ^ 12 ≤ x1 ∨ 2 ^ 12 ≤ x2) ∧
    ∀ w, (AsmLine.emask x1 x2).assemble = some w →
      ∃ a b, decode w = .ok (.emask a b) ∧ a.toNat = x1 ∧ b.toNat = x2) ∧
  (∀ off m c, ((AsmLine.colwrSingle off m c).assemble = none ↔ 2 ^ 16 ≤ off ∨ 2 ^ 16 ≤ m ∨ 2 ^ 4 ≤ c) ∧
    ∀ w, (AsmLine.colwrSingle off m c).assemble = some w →
      ∃ k n o, decode w = .ok (.colwr .single k n o) ∧ k.toNat = c ∧ n.toNat = m ∧ o.toNat = off) ∧
  (∀ off m c, ((AsmLine.colwrEdge off m c).assemble = none ↔ 2 ^ 16 ≤ off ∨ 2 ^ 16 ≤ m ∨ 2 ^ 4 ≤ c) ∧
    ∀ w, (AsmLine.colwrEdge off m c).assemble = some w →
      ∃ k n o, decode w = .ok (.colwr .edge k n o) ∧ k.toNat = c ∧ n.toNat = m ∧ o.toNat = off) ∧
  (∀ off c, ((AsmLine.colwrFull off c).assemble = none ↔ 2 ^ 16 ≤ off ∨ 2 ^ 4 ≤ c) ∧
    ∀ w, (AsmLine.colwrFull off c).assemble = some w →
      ∃ k o, decode w = .ok (.colwr .full k 0#16 o) ∧ k.toNat = c ∧ o.toNat = off) ∧
  (∀ x1 y1 x2 y2 c, ((AsmLine.drawbox x1 y1 x2 y2 c).assemble = none ↔
      2 ^ 12 ≤ x1 ∨ 2 ^ 12 ≤ y1 ∨ 2 ^ 12 ≤ x2 ∨ 2 ^ 12 ≤ y2 ∨ 2 ^ 4 ≤ c) ∧
    ∀ w, (AsmLine.drawbox x1 y1 x2 y2 c).assemble = some w → ∃ a b d e k, decode w = .ok (.drawbox a b d e k) ∧
      a.toNat = x1 ∧ b.toNat = y1 ∧ d.toNat = x2 ∧ e.toNat = y2 ∧ k.toNat = c) ∧
  (∀ v, ((AsmLine.dword v).assemble = none ↔ 2 ^ 64 ≤ v) ∧
    ∀ w, (AsmLine.dword v).assemble = some w → w.toNat = v)

/-! ## The command port, the register port and reset (10_state.md, 70_reset_and_hazards.md) -/

/-- A step with a command submitted to an idle engine runs the decoded instruction: it is `exec` of it, the input
taken. -/
def Obligations.StepRunsDecodedCommand : Prop :=
  ∀ (s : State) (w : Command) (rest : List Input) (i : Instr),
    s.engine = .idle → s.inputs = .command w :: rest → decode w = .ok i →
      step s = exec i { s with inputs := rest }

/-- A word that is no command completes with `IllegalCommand` and has no other effect; `LASTOP` is its OP field
(R33, R99, R100, R213). -/
def Obligations.IllegalWordHasNoOtherEffect : Prop :=
  ∀ (s : State) (w : Command) (rest : List Input),
    s.engine = .idle → s.inputs = .command w :: rest → illegalWord w →
      step s = .next ({ s with inputs := rest }.failedWith (opField w) .illegalCommand)

/-- `Submit(w)` is accepted only while BUSY = 0; acceptance starts RUNNING(w, 0) and sets BUSY. While BUSY = 1 the
submission stays with the host and the running command goes on (R20, R245), and, in a state that meets the invariant, it
does not stop (R252). That acceptance leaves the held word 0 is log entry 4, and that the step in which the host waits is
one step of the engine is log entry 7. -/
def Obligations.SubmissionIsAcceptedOnlyWhenIdle : Prop :=
  ∀ (s : State) (w : Command) (rest : List Input), s.inputs = .submit w :: rest →
    (s.busy = false → ∃ t, step s = .next t ∧ t.busy = true ∧
      t = { s with inputs := rest, engine := .running { word := w, done := 0, latch := 0#16, raced := [] } }) ∧
    (∀ r t, s.engine = .running r → step s = .next t →
      t.inputs = s.inputs ∧ (t.engine = .idle ∨ ∃ r', t.engine = .running r' ∧ r'.word = r.word)) ∧
    (∀ r, s.Inv → s.engine = .running r → ∃ t, step s = .next t)

/-- `ReadReg(off)` gives the register the map of R37 names, 0 at any other offset, and changes nothing (R21, R37). -/
def Obligations.RegisterReadsFollowTheMap : Prop :=
  ∀ (s : State) (off : Nat) (rest : List Input), s.inputs = .readReg off :: rest →
    ∃ v, step s = .next { s with inputs := rest, replies := .register off v :: s.replies } ∧
      (off = 0x00 → v = s.statusReg) ∧ (off = 0x04 → v = s.configReg) ∧ (off = 0x08 → v = s.fbBase) ∧
      (off = 0x0C → v = s.res0) ∧ (off = 0x10 → v = s.res1) ∧ (off = 0x14 → v = s.res2) ∧
      (off = 0x18 → v = s.res3) ∧
      ((off % 4 ≠ 0 ∨ 0x18 < off) → v = 0#32)

/-- The layout of STATUS and the numbers of the codes (R27, R210). -/
def Obligations.StatusRegisterLayout : Prop :=
  (∀ s : State,
    s.statusReg.getLsbD 0 = s.busy ∧ s.statusReg.getLsbD 1 = s.initDone ∧ s.statusReg.getLsbD 2 = s.fbValid ∧
    s.statusReg.getLsbD 3 = s.anyErr ∧ s.statusReg.extractLsb 6 4 = s.err.code ∧ s.statusReg.getLsbD 7 = false ∧
    s.statusReg.extractLsb 11 8 = s.lastOp ∧ s.statusReg.extractLsb 31 12 = 0 ∧
    (s.busy = true ↔ ∃ r, s.engine = .running r)) ∧
  ErrCode.ok.code = 0 ∧ ErrCode.outOfRange.code = 1 ∧ ErrCode.invalidGeometry.code = 2 ∧
  ErrCode.illegalCommand.code = 3 ∧ ErrCode.notInitialised.code = 4 ∧ ErrCode.badSurface.code = 5

/-- The layout of CONFIG, that this hardware reads EDGE_MODE 0, and that nothing changes it, reset included (R34). -/
def Obligations.ConfigRegisterIsConstant : Prop :=
  ∀ s : State,
    (s.configReg.getLsbD 0 = true ↔ s.params.edgeMode = .literal) ∧ s.configReg.extractLsb 7 1 = 0 ∧
    (s.configReg.extractLsb 13 8).toNat = s.params.addrW.val ∧ 15 ≤ (s.configReg.extractLsb 13 8).toNat ∧
    (s.configReg.extractLsb 13 8).toNat ≤ 32 ∧ s.configReg.extractLsb 31 14 = 0 ∧
    State.reset.configReg.getLsbD 0 = false ∧ ∀ t, step s = .next t → t.configReg = s.configReg

/-- Reset puts the engine and every register at its reset value, in whatever state, and touches neither CONFIG nor
memory (R45, R240, R242). That the host's pending inputs and its replies are kept is the model's choice (log entry 13).
Of the translator tables nothing is claimed. -/
def Obligations.ResetGivesTheResetValues : Prop :=
  ∀ (s : State) (rest : List Input), s.inputs = .reset :: rest →
    ∃ t, step s = .next t ∧ t.engine = .idle ∧ t.statusReg = 0#32 ∧ t.fbBase = 0#32 ∧ t.res0 = 0#32 ∧ t.res1 = 0#32 ∧
      t.res2 = 0#32 ∧ t.res3 = 0#32 ∧ t.configReg = s.configReg ∧ t.mem = s.mem ∧ t.inputs = rest ∧
      t.replies = s.replies

/-- What the first commands after reset do (R243): EMASK works, XLATE and DRAWBOX complete NotInitialised, COLWR
BadSurface, whatever their operands. -/
def Obligations.CommandsAfterReset : Prop :=
  ∀ (p : Params) (n : Nat),
    (∀ x1 x2 : Coord, x1.toNat ≤ x2.toNat → x2.toNat < 320 →
      ∃ t, exec (.emask x1 x2) (State.resetWith p n) = .next t ∧ t.err = .ok) ∧
    (∀ x y : Coord, exec (.xlate x y) (State.resetWith p n) =
      .next ((State.resetWith p n).failedWith 0x3#4 .notInitialised)) ∧
    (∀ x1 y1 x2 y2 c, exec (.drawbox x1 y1 x2 y2 c) (State.resetWith p n) =
      .next ((State.resetWith p n).failedWith 0x6#4 .notInitialised)) ∧
    (∀ role c m off, exec (.colwr role c m off) (State.resetWith p n) =
      .next ((State.resetWith p n).failedWith 0x5#4 .badSurface))

/-- The boot sequence INIT, SETFB base, and the same with the two swapped, lead from reset to a state that has both
flags set, the tables built and the base in FB_BASE, with no error recorded (R244). -/
def Obligations.BootSequenceMakesTheMachineReady : Prop :=
  ∀ (p : Params) (n : Nat) (base : BitVec 32), base.toNat % 2 = 0 → base.toNat + 32000 ≤ 2 ^ p.addrW.val →
    ∀ boot, (boot = [.command (encode .init), .command (encode (.setfb base))] ∨
        boot = [.command (encode (.setfb base)), .command (encode .init)]) →
      ∃ t : State, Host.Core.run Sys2Proof.core 2 { State.resetWith p n with inputs := boot } = .next t ∧
        t.initDone = true ∧ t.fbValid = true ∧ t.tablesBuilt ∧ t.fbBase = base ∧ t.err = .ok ∧ t.anyErr = false ∧
        t.busy = false ∧ t.Inv

/-! ## The commands -/

/-- INIT (R120, R121): it builds both tables and sets INIT_DONE, whatever the state, and changes nothing else but the
STATUS fields; it makes no memory access; any other word of its opcode completes IllegalCommand. -/
def Obligations.InitFollowsItsRule : Prop :=
  (∀ s : State, ∃ t, exec .init s = .next t ∧
    (∀ (c : Fin 20) (j : Fin 16) (slot : Fin 320), slot.val = c.val * 16 + j.val →
      (t.colTable[slot]).byteOffset.toNat = c.val * 8 ∧ (t.colTable[slot]).bitColumn.toNat = j.val) ∧
    (∀ r : Fin 200, (t.rowTable[r]).toNat = r.val * 160) ∧
    t = { s with colTable := t.colTable, rowTable := t.rowTable, initDone := true }.doneWith 0x1#4) ∧
  (∀ (s : State) (w : Command), opField w = 0x1#4 →
    commandAccesses w s = [] ∧
    runWord w s = if w = 0x1000000000000000#64 then exec .init s
      else .next (s.failedWith 0x1#4 .illegalCommand))

/-- A second INIT writes the values the first wrote (R120). -/
def Obligations.SecondInitChangesNothing : Prop :=
  ∀ s : State, ∃ t, exec .init s = .next t ∧ exec .init t = .next t

/-- SETFB (R200): an even base whose 32000 bytes lie below 2^ADDR_W goes to FB_BASE and sets FB_VALID; any other base
completes BadSurface; nothing else changes, and no memory access is made; a must-be-zero bit set completes
IllegalCommand. -/
def Obligations.SetfbFollowsItsRule : Prop :=
  (∀ (s : State) (base : BitVec 32),
    (base.toNat % 2 = 0 ∧ base.toNat + 32000 ≤ 2 ^ s.params.addrW.val →
      exec (.setfb base) s = .next ({ s with fbBase := base, fbValid := true }.doneWith 0x2#4)) ∧
    (base.toNat % 2 ≠ 0 ∨ 2 ^ s.params.addrW.val < base.toNat + 32000 →
      exec (.setfb base) s = .next (s.failedWith 0x2#4 .badSurface))) ∧
  (∀ (s : State) (w : Command), opField w = 0x2#4 →
    commandAccesses w s = [] ∧
    runWord w s = if w.extractLsb 59 32 = 0 then exec (.setfb (w.extractLsb 31 0)) s
      else .next (s.failedWith 0x2#4 .illegalCommand))

/-- XLATE (R123): the checks in their order, and RES0 = bitColumn in bits 19:16 with byteOffset in bits 14:0, of the
translation R122 gives from the tables; nothing else changes, and no memory access is made. -/
def Obligations.XlateFollowsItsRule : Prop :=
  (∀ (s : State) (x y : Coord),
    (s.initDone = false → exec (.xlate x y) s = .next (s.failedWith 0x3#4 .notInitialised)) ∧
    (s.initDone = true → (320 ≤ x.toNat ∨ 200 ≤ y.toNat) →
      exec (.xlate x y) s = .next (s.failedWith 0x3#4 .outOfRange)) ∧
    (∀ (px : Fin 320) (py : Fin 200), s.initDone = true → x.toNat = px.val → y.toNat = py.val →
      exec (.xlate x y) s = .next ({ s with
        res0 := BitVec.ofNat 32 ((s.colTable[px]).bitColumn.toNat * 2 ^ 16 +
          ((s.rowTable[py]).toNat + (s.colTable[px]).byteOffset.toNat) % 2 ^ 15) }.doneWith 0x3#4))) ∧
  (∀ (s : State) (w : Command), opField w = 0x3#4 →
    commandAccesses w s = [] ∧
    runWord w s = if w.extractLsb 59 24 = 0 then exec (.xlate (w.extractLsb 11 0) (w.extractLsb 23 12)) s
      else .next (s.failedWith 0x3#4 .illegalCommand))

/-- With the tables built, XLATE returns y*160 + (x - x mod 16)/16*8 and x mod 16: a multiple of 8 at most 31992, and
a bit column at most 15 (R124, R125). -/
def Obligations.XlateReturnsTheClosedForm : Prop :=
  ∀ (s : State) (x y : Coord), s.initDone = true → s.tablesBuilt → x.toNat < 320 → y.toNat < 200 →
    ∃ off col, exec (.xlate x y) s =
        .next ({ s with res0 := BitVec.ofNat 32 (col * 2 ^ 16 + off) }.doneWith 0x3#4) ∧
      off = y.toNat * 160 + (x.toNat - x.toNat % 16) / 16 * 8 ∧ col = x.toNat % 16 ∧
      off % 8 = 0 ∧ off ≤ 31992 ∧ col ≤ 15

/-- EMASK (R143, R144): the checks in their order, and the four result registers as numbers computed from x1 and x2;
nothing else changes, no memory access is made, and neither INIT_DONE nor FB_VALID is needed. -/
def Obligations.EmaskFollowsItsRule : Prop :=
  (∀ (s : State) (x1 x2 : Coord),
    (320 ≤ x1.toNat ∨ 320 ≤ x2.toNat → exec (.emask x1 x2) s = .next (s.failedWith 0x4#4 .outOfRange)) ∧
    (x1.toNat < 320 → x2.toNat < 320 → x2.toNat < x1.toNat →
      exec (.emask x1 x2) s = .next (s.failedWith 0x4#4 .invalidGeometry)) ∧
    (x1.toNat ≤ x2.toNat → x2.toNat < 320 →
      ∀ sm em cm : PlaneWord, sm = 0xFFFF#16 >>> (x1.toNat % 16) → em = 0xFFFF#16 <<< (15 - x2.toNat % 16) →
        cm = sm &&& em →
        exec (.emask x1 x2) s = .next ({ s with
          res0 := BitVec.ofNat 32 ((0xFFFF - sm.toNat) * 2 ^ 16 + sm.toNat)
          res1 := BitVec.ofNat 32 ((0xFFFF - em.toNat) * 2 ^ 16 + em.toNat)
          res2 := BitVec.ofNat 32 ((0xFFFF - cm.toNat) * 2 ^ 16 + cm.toNat)
          res3 := BitVec.ofNat 32 (x2.toNat / 16 * 2 ^ 24 + x1.toNat / 16 * 2 ^ 16 + x2.toNat % 16 * 2 ^ 12 +
            x1.toNat % 16 * 2 ^ 8 + (x2.toNat / 16 - x1.toNat / 16)) }.doneWith 0x4#4))) ∧
  (∀ (s : State) (w : Command), opField w = 0x4#4 →
    commandAccesses w s = [] ∧
    runWord w s = if w.extractLsb 59 36 = 0 ∧ w.extractLsb 23 12 = 0
      then exec (.emask (w.extractLsb 11 0) (w.extractLsb 35 24)) s
      else .next (s.failedWith 0x4#4 .illegalCommand))

/-- COLWR (R164, R165): the checks in their order; on success the plane word i of the column at FB_BASE + off holds
what R162 or R163 composes from the word it held, the mask and the colour's pattern, for FULL the pattern, and every
other byte of memory and every register but STATUS is as before. -/
def Obligations.ColwrFollowsItsRule : Prop :=
  (∀ (s : State) (role : Role) (c : Color) (m : PlaneWord) (off : BitVec 16),
    (s.fbValid = false → exec (.colwr role c m off) s = .next (s.failedWith 0x5#4 .badSurface)) ∧
    (s.fbValid = true → (off.toNat % 8 ≠ 0 ∨ 31992 < off.toNat) →
      exec (.colwr role c m off) s = .next (s.failedWith 0x5#4 .outOfRange)) ∧
    (s.fbValid = true → s.surfaceOk → off.toNat % 8 = 0 → off.toNat ≤ 31992 →
      ∃ t, exec (.colwr role c m off) s = .next t ∧ t = { s with mem := t.mem }.doneWith 0x5#4 ∧
        (∀ i : Fin 4, t.wordAt (s.fbBase.toNat + off.toNat + 2 * i.val) =
          if role = .full then planePattern c i
          else compose s.params.edgeMode role i (s.wordAt (s.fbBase.toNat + off.toNat + 2 * i.val)) m
            (planePattern c i)) ∧
        (∀ a, a < s.fbBase.toNat + off.toNat ∨ s.fbBase.toNat + off.toNat + 8 ≤ a → t.byteAt a = s.byteAt a))) ∧
  (∀ (s : State) (w : Command), opField w = 0x5#4 →
    runWord w s =
      if w.extractLsb 59 54 = 0 ∧ w.extractLsb 47 32 = 0 ∧ w.extractLsb 53 52 ≠ 3#2 then
        exec (.colwr (if w.extractLsb 53 52 = 0#2 then .single else if w.extractLsb 53 52 = 1#2 then .edge else .full)
          (w.extractLsb 51 48) (w.extractLsb 31 16) (w.extractLsb 15 0)) s
      else .next (s.failedWith 0x5#4 .illegalCommand))

/-- The accesses of a COLWR and their order: read and write plane 0, then 1, 2 and 3 for SINGLE and EDGE, and only
the four writes for FULL, all at FB_BASE + off + 0, 2, 4, 6; none when it fails (R164, R165). -/
def Obligations.ColwrAccessOrder : Prop :=
  ∀ (s : State) (w : Command) (role : Role) (c : Color) (m : PlaneWord) (off : BitVec 16),
    decode w = .ok (.colwr role c m off) →
    (s.fbValid = true → off.toNat % 8 = 0 → off.toNat ≤ 31992 →
      ∀ a, a = s.fbBase.toNat + off.toNat →
        (commandAccesses w s).map (fun x => (x.isWrite, x.addr)) =
          if role = .full then [(true, a), (true, a + 2), (true, a + 4), (true, a + 6)]
          else [(false, a), (true, a), (false, a + 2), (true, a + 2), (false, a + 4), (true, a + 4), (false, a + 6),
            (true, a + 6)]) ∧
    (s.fbValid = false ∨ off.toNat % 8 ≠ 0 ∨ 31992 < off.toNat → commandAccesses w s = [])

/-- The pixel effect of a column write under MASKED: a pixel of the column whose mask bit is 1, or any pixel of it in
the role FULL, takes the colour, and every other pixel keeps its four plane bits (R166). -/
def Obligations.ColwrPixelEffectMasked : Prop :=
  ∀ (s : State) (role : Role) (c : Color) (m : PlaneWord) (off : BitVec 16),
    s.params.edgeMode = .masked → s.fbValid = true → s.surfaceOk → off.toNat % 8 = 0 → off.toNat ≤ 31992 →
    ∃ t, exec (.colwr role c m off) s = .next t ∧
      ∀ (x : Fin 320) (y : Fin 200),
        (y.val * 160 + x.val / 16 * 8 = off.toNat → (role = .full ∨ m.getLsbD (15 - x.val % 16) = true) →
          t.pixelColor x y = c) ∧
        ((y.val * 160 + x.val / 16 * 8 ≠ off.toNat ∨ (role ≠ .full ∧ m.getLsbD (15 - x.val % 16) = false)) →
          ∀ i, t.pixelPlane x y i = s.pixelPlane x y i)

/-- DRAWBOX's checks in their order, each before any access: IllegalCommand, NotInitialised, BadSurface, OutOfRange,
InvalidGeometry; when one fails, no access is made and nothing but STATUS changes (R186, R217). -/
def Obligations.DrawboxReportsErrorsInOrder : Prop :=
  (∀ (s : State) (w : Command), opField w = 0x6#4 →
    (w.extractLsb 59 52 ≠ 0 → commandAccesses w s = []) ∧
    runWord w s =
      if w.extractLsb 59 52 = 0 then
        exec (.drawbox (w.extractLsb 11 0) (w.extractLsb 23 12) (w.extractLsb 35 24) (w.extractLsb 47 36)
          (w.extractLsb 51 48)) s
      else .next (s.failedWith 0x6#4 .illegalCommand)) ∧
  ∀ (s : State) (w : Command) (x1 y1 x2 y2 : Coord) (c : Color), decode w = .ok (.drawbox x1 y1 x2 y2 c) →
    (s.initDone = false →
      commandAccesses w s = [] ∧ exec (.drawbox x1 y1 x2 y2 c) s = .next (s.failedWith 0x6#4 .notInitialised)) ∧
    (s.initDone = true → s.fbValid = false →
      commandAccesses w s = [] ∧ exec (.drawbox x1 y1 x2 y2 c) s = .next (s.failedWith 0x6#4 .badSurface)) ∧
    (s.initDone = true → s.fbValid = true →
      (320 ≤ x1.toNat ∨ 320 ≤ x2.toNat ∨ 200 ≤ y1.toNat ∨ 200 ≤ y2.toNat) →
      commandAccesses w s = [] ∧ exec (.drawbox x1 y1 x2 y2 c) s = .next (s.failedWith 0x6#4 .outOfRange)) ∧
    (s.initDone = true → s.fbValid = true → x1.toNat < 320 → x2.toNat < 320 → y1.toNat < 200 → y2.toNat < 200 →
      (x2.toNat < x1.toNat ∨ y2.toNat < y1.toNat) →
      commandAccesses w s = [] ∧ exec (.drawbox x1 y1 x2 y2 c) s = .next (s.failedWith 0x6#4 .invalidGeometry))

/-- DRAWBOX with y1 = y2 completes OK and draws nothing (R180). -/
def Obligations.DrawboxOfOneRowDrawsNothing : Prop :=
  ∀ (s : State) (x1 y x2 : Coord) (c : Color), s.initDone = true → s.fbValid = true →
    x1.toNat ≤ x2.toNat → x2.toNat < 320 → y.toNat < 200 →
      exec (.drawbox x1 y x2 y c) s = .next (s.doneWith 0x6#4)

/-- DRAWBOX with y2 > y1, both edge modes: on each scanline y1..y2 the single column holds the SINGLE composition with
the combined mask, or the start and end columns the EDGE composition with the start and end mask and each interior
column the colour's pattern; every byte outside those columns, and every register but STATUS, is as before (R182 to
R184, R186). -/
def Obligations.DrawboxWritesItsColumns : Prop :=
  ∀ (s : State) (x1 y1 x2 y2 : Coord) (c : Color), s.initDone = true → s.tablesBuilt → s.fbValid = true →
    s.surfaceOk → x1.toNat ≤ x2.toNat → x2.toNat < 320 → y1.toNat < y2.toNat → y2.toNat < 200 →
    ∃ t, exec (.drawbox x1 y1 x2 y2 c) s = .next t ∧ t = { s with mem := t.mem }.doneWith 0x6#4 ∧
      (∀ (y col : Nat) (i : Fin 4), y1.toNat ≤ y → y ≤ y2.toNat → x1.toNat / 16 ≤ col → col ≤ x2.toNat / 16 →
        ∀ (a : Nat) (sm em old k : PlaneWord), a = s.fbBase.toNat + y * 160 + col * 8 + 2 * i.val →
          sm = 0xFFFF#16 >>> (x1.toNat % 16) → em = 0xFFFF#16 <<< (15 - x2.toNat % 16) → old = s.wordAt a →
          k = planePattern c i →
          t.wordAt a =
            if x1.toNat / 16 = x2.toNat / 16 then compose s.params.edgeMode .single i old (sm &&& em) k
            else if col = x1.toNat / 16 then compose s.params.edgeMode .edge i old sm k
            else if col = x2.toNat / 16 then compose s.params.edgeMode .edge i old em k
            else k) ∧
      (∀ a, (∀ y col : Nat, y1.toNat ≤ y → y ≤ y2.toNat → x1.toNat / 16 ≤ col → col ≤ x2.toNat / 16 →
          a < s.fbBase.toNat + y * 160 + col * 8 ∨ s.fbBase.toNat + y * 160 + col * 8 + 8 ≤ a) →
        t.byteAt a = s.byteAt a)

/-- The contract of drawBox (R189): under MASKED, after a DRAWBOX with y2 > y1 every pixel of [x1, x2] × [y1, y2] has
the colour, every other pixel keeps its four plane bits, and every byte outside the framebuffer is unchanged. -/
def Obligations.DrawboxFillsExactlyTheBoxMasked : Prop :=
  ∀ (s : State) (x1 y1 x2 y2 : Coord) (c : Color), s.params.edgeMode = .masked → s.initDone = true →
    s.tablesBuilt → s.fbValid = true → s.surfaceOk → x1.toNat ≤ x2.toNat → x2.toNat < 320 → y1.toNat < y2.toNat →
    y2.toNat < 200 →
    ∃ t, exec (.drawbox x1 y1 x2 y2 c) s = .next t ∧
      (∀ (x : Fin 320) (y : Fin 200),
        if x1.toNat ≤ x.val ∧ x.val ≤ x2.toNat ∧ y1.toNat ≤ y.val ∧ y.val ≤ y2.toNat then t.pixelColor x y = c
        else ∀ i, t.pixelPlane x y i = s.pixelPlane x y i) ∧
      (∀ a, ¬ s.inSurface a → t.byteAt a = s.byteAt a)

/-- Under LITERAL (R190): interior columns take the colour; in the single, start and end columns each plane bit
follows the per-bit table of R163, inside meaning x1 ≤ x ≤ x2; pixels of other columns and rows keep their bits. -/
def Obligations.DrawboxPerBitLiteral : Prop :=
  ∀ (s : State) (x1 y1 x2 y2 : Coord) (c : Color), s.params.edgeMode = .literal → s.initDone = true →
    s.tablesBuilt → s.fbValid = true → s.surfaceOk → x1.toNat ≤ x2.toNat → x2.toNat < 320 → y1.toNat < y2.toNat →
    y2.toNat < 200 →
    ∃ t, exec (.drawbox x1 y1 x2 y2 c) s = .next t ∧
      (∀ (x : Fin 320) (y : Fin 200) (i : Fin 4) (q k inside : Bool), q = s.pixelPlane x y i → k = c.getLsbD i.val →
        inside = decide (x1.toNat ≤ x.val ∧ x.val ≤ x2.toNat) →
        t.pixelPlane x y i =
          if y.val < y1.toNat ∨ y2.toNat < y.val ∨ x.val / 16 < x1.toNat / 16 ∨ x2.toNat / 16 < x.val / 16 then q
          else if x1.toNat / 16 < x.val / 16 ∧ x.val / 16 < x2.toNat / 16 then k
          else if x1.toNat / 16 = x2.toNat / 16 then (if inside then q || k else q && k)
          else if i.val < 2 then (if inside then q || k else q)
          else (if inside then q else q && k)) ∧
      (∀ a, ¬ s.inSurface a → t.byteAt a = s.byteAt a)

/-- A box is drawn in increasing scanlines and left to right, plane 0 first: the plane words it stores to come at
strictly rising addresses, so none is stored to twice (R185, R187), and each read is of the word stored next. -/
def Obligations.DrawboxStoresAtRisingAddresses : Prop :=
  ∀ (s : State) (x1 y1 x2 y2 : Coord) (c : Color), s.tablesBuilt →
    (((commandAccesses (encode (.drawbox x1 y1 x2 y2 c)) s).filter Access.isWrite).map Access.addr).Pairwise (· < ·) ∧
    ∀ k x, (commandAccesses (encode (.drawbox x1 y1 x2 y2 c)) s)[k]? = some x → x.isWrite = false →
      ∃ z, (commandAccesses (encode (.drawbox x1 y1 x2 y2 c)) s)[k + 1]? = some z ∧ z.isWrite = true ∧
        z.addr = x.addr

/-- The exact number of memory accesses of each command, and the largest (R251). -/
def Obligations.AccessCounts : Prop :=
  ∀ s : State,
    (∀ w t, runWord w s = .next t → t.err ≠ .ok → commandAccesses w s = []) ∧
    commandAccesses (encode .init) s = [] ∧
    (∀ base, commandAccesses (encode (.setfb base)) s = []) ∧
    (∀ x y, commandAccesses (encode (.xlate x y)) s = []) ∧
    (∀ x1 x2, commandAccesses (encode (.emask x1 x2)) s = []) ∧
    (∀ role c m off, s.fbValid = true → off.toNat % 8 = 0 → off.toNat ≤ 31992 →
      (commandAccesses (encode (.colwr role c m off)) s).length = if role = .full then 4 else 8) ∧
    (∀ (x1 y1 x2 y2 : Coord) (c : Color) (wc : Nat), s.initDone = true → s.fbValid = true → x1.toNat ≤ x2.toNat →
      x2.toNat < 320 → y1.toNat ≤ y2.toNat → y2.toNat < 200 → wc = x2.toNat / 16 - x1.toNat / 16 →
      (commandAccesses (encode (.drawbox x1 y1 x2 y2 c)) s).length =
        if y1 = y2 then 0
        else if wc = 0 then (y2.toNat - y1.toNat + 1) * 8
        else (y2.toNat - y1.toNat + 1) * (16 + 4 * (wc - 1))) ∧
    (∀ w, (commandAccesses w s).length ≤ 17600)

/-! ## Masks, patterns and composition -/

/-- START[p] is the pixels p..15, END[p] the pixels 0..p, and START[p] & END[q] exactly the pixels p..q, none when
p > q; pixel j is the bit of weight 2^(15-j) (R140, R141, R145). -/
def Obligations.MasksCoverTheirPixels : Prop :=
  ∀ p q j : Fin 16,
    ((startMask p).getLsbD (15 - j.val) = true ↔ p ≤ j) ∧
    ((endMask q).getLsbD (15 - j.val) = true ↔ j ≤ q) ∧
    ((startMask p &&& endMask q).getLsbD (15 - j.val) = true ↔ p ≤ j ∧ j ≤ q) ∧
    ((clearInverse (startMask p)).getLsbD (15 - j.val) = true ↔ j < p) ∧
    (clearInverse (endMask q)).getLsbD (15 - j.val) = !(endMask q).getLsbD (15 - j.val)

/-- Plane i of a colour's pattern is 0xFFFF when bit i of the colour index is 1, else 0x0000 (R160). -/
def Obligations.PlanePatternBroadcastsTheColorBit : Prop :=
  ∀ (c : Color) (i : Fin 4),
    planePattern c i = if c.toNat / 2 ^ i.val % 2 = 1 then 0xFFFF#16 else 0x0000#16

/-- The composition of a plane word bit by bit: q the old bit, m the mask bit, k the colour bit (R162, R163). -/
def Obligations.CompositionPerBit : Prop :=
  ∀ (role : Role) (i : Fin 4) (p m c : PlaneWord) (b : Fin 16) (q k inside : Bool),
    q = p.getLsbD b.val → k = c.getLsbD b.val → inside = m.getLsbD b.val →
    (compose .masked role i p m c).getLsbD b.val =
      (match role with
        | .full => k
        | .single => if inside then k else q
        | .edge => if inside then k else q) ∧
    (compose .literal role i p m c).getLsbD b.val =
      (match role with
        | .full => k
        | .single => if inside then q || k else q && k
        | .edge => if i.val < 2 then (if inside then q || k else q) else (if inside then q else q && k))

/-- For a uniform pattern the source's single-column formula with the set mask in place of the combined clear inverse
is the MASKED write (R167). Where the LITERAL formulas differ from that write: at C = 0x0000 all of them do somewhere; at
C = 0xFFFF the EDGE formula of planes 2 and 3 does, while the SINGLE formula (90_conflicts.md C3) and the EDGE formula of
planes 0 and 1 are equal to it. -/
def Obligations.UniformPatternFormulas : Prop :=
  (∀ (p m c : PlaneWord), c = 0xFFFF#16 ∨ c = 0x0000#16 →
    (p &&& ~~~(m &&& ~~~c)) ||| (m &&& c) = (p &&& ~~~m) ||| (c &&& m) ∧
      ∀ role i, role ≠ .full → compose .masked role i p m c = (p &&& ~~~m) ||| (c &&& m)) ∧
  (∀ (role : Role) (i : Fin 4), role ≠ .full →
    ∃ p m, compose .literal role i p m 0x0000#16 ≠ compose .masked role i p m 0x0000#16) ∧
  (∀ i : Fin 4, 2 ≤ i.val → ∃ p m, compose .literal .edge i p m 0xFFFF#16 ≠ compose .masked .edge i p m 0xFFFF#16) ∧
  (∀ (p m : PlaneWord) (i : Fin 4),
    compose .literal .single i p m 0xFFFF#16 = compose .masked .single i p m 0xFFFF#16 ∧
    (i.val < 2 → compose .literal .edge i p m 0xFFFF#16 = compose .masked .edge i p m 0xFFFF#16))

/-- DRAWBOX draws the scanlines y1..y2 when y2 > y1 and none when y1 = y2, so never exactly one (R180, R188). -/
def Obligations.BoxScanlineCount : Prop :=
  ∀ y1 y2 : Fin 200, y1 ≤ y2 →
    (∀ y, y ∈ boxScanlines y1 y2 ↔ y1 < y2 ∧ y1 ≤ y ∧ y ≤ y2) ∧
    (boxScanlines y1 y2).length = (if y1 = y2 then 0 else y2.val - y1.val + 1) ∧
    (boxScanlines y1 y2).length ≠ 1

/-! ## Memory (20_memory.md) -/

/-- Big-endian plane words: a write puts bits 15:8 at the address and bits 7:0 at the next, leaves every other byte,
and a read puts them together again (R64). -/
def Obligations.PlaneWordsAreBigEndian : Prop :=
  ∀ (m : Memory) (a : Nat) (v : PlaneWord),
    Memory.readByte (Memory.writeWord m a v) a = v.extractLsb 15 8 ∧
    Memory.readByte (Memory.writeWord m a v) (a + 1) = v.extractLsb 7 0 ∧
    (∀ b, b ≠ a → b ≠ a + 1 → Memory.readByte (Memory.writeWord m a v) b = Memory.readByte m b) ∧
    (Memory.readWord m a).toNat = (Memory.readByte m a).toNat * 2 ^ 8 + (Memory.readByte m (a + 1)).toNat ∧
    Memory.readWord (Memory.writeWord m a v) a = v

/-- Pixel x of plane i on scanline y is bit 7 - (x mod 8) of the byte at PlaneAddr(x, y, i) + (x mod 16) div 8
(R65). -/
def Obligations.PixelBitInItsByte : Prop :=
  ∀ (s : State) (x : Fin 320) (y : Fin 200) (i : Fin 4),
    s.pixelPlane x y i =
      (s.byteAt (s.fbBase.toNat + y.val * 160 + x.val / 16 * 8 + 2 * i.val + x.val % 16 / 8)).getLsbD
        (7 - x.val % 8)

/-- Memory is plain for the host (R70, R250): a byte read gives the byte and changes nothing, also while a command runs;
a byte written while no command runs is read back, every other byte and every register as before. An address outside
the memory space stops the machine by name, which is the model's choice (log entry 9). -/
def Obligations.HostSeesPlainMemory : Prop :=
  ∀ (s : State) (a : Nat) (rest : List Input),
    (s.inputs = .readByte a :: rest → a < 2 ^ s.params.addrW.val →
      step s = .next { s with inputs := rest, replies := .byte a (s.byteAt a) :: s.replies }) ∧
    (∀ v, s.inputs = .writeByte a v :: rest → s.engine = .idle → a < 2 ^ s.params.addrW.val →
      ∃ t, step s = .next t ∧ t = { s with inputs := rest, mem := t.mem } ∧ t.byteAt a = v ∧
        ∀ b, b ≠ a → t.byteAt b = s.byteAt b) ∧
    (∀ input, s.inputs = input :: rest → (input = .readByte a ∨ ∃ v, input = .writeByte a v) →
      2 ^ s.params.addrW.val ≤ a → step s = .fault .noSuchByte)

/-- Canonical memories that read the same at every address are the same list. This is a law of the model's own list
form, with its choice of what an unlisted address reads as (log entry 5); no rule of the spec says it. -/
def Obligations.CanonicalMemoriesAreEqualWhenTheyReadEqual : Prop :=
  ∀ m n : Memory, Memory.wf m → Memory.wf n → (∀ a, Memory.readByte m a = Memory.readByte n a) → m = n

/-- Every access of every command is to an even address, and both its bytes lie in the framebuffer (R68, R81). -/
def Obligations.EveryAccessIsInTheFramebuffer : Prop :=
  ∀ (s : State) (w : Command), s.Inv → ∀ x ∈ commandAccesses w s,
    x.addr % 2 = 0 ∧ s.fbBase.toNat ≤ x.addr ∧ x.addr + 1 ≤ s.fbBase.toNat + 31999 ∧
    x.addr + 1 < 2 ^ s.params.addrW.val

/-- No command changes a byte outside the framebuffer (R81). -/
def Obligations.CommandsChangeOnlyTheFramebuffer : Prop :=
  ∀ (s : State) (w : Command), s.Inv →
    ∃ t, runWord w s = .next t ∧ ∀ a, ¬ s.inSurface a → t.byteAt a = s.byteAt a

/-! ## Rules of the whole machine (60_exceptions.md, 10_state.md) -/

/-- Errors are precise: a command that ends with a code other than OK leaves the state it found but for ERR, LASTOP,
ANYERR and BUSY, and makes no memory access (R216, R218). -/
def Obligations.FailedCommandsChangeOnlyStatus : Prop :=
  ∀ (s t : State) (w : Command), runWord w s = .next t → t.err ≠ .ok →
    commandAccesses w s = [] ∧ t = s.failedWith (w.extractLsb 63 60) t.err

/-- The completion update: the engine is idle again, LASTOP is the word's OP field, ERR its code, and ANYERR is set by
a code other than OK and cleared by none (R31, R33, R219). -/
def Obligations.CompletionUpdatesStatus : Prop :=
  ∀ (s : State) (w : Command), s.Inv → ∃ t, runWord w s = .next t ∧ t.engine = .idle ∧ t.busy = false ∧
    t.lastOp = w.extractLsb 63 60 ∧ (t.anyErr = true ↔ s.anyErr = true ∨ t.err ≠ .ok)

/-- RES0..RES3 are written only by a successful XLATE, which writes RES0, or a successful EMASK (R36). -/
def Obligations.ResultRegistersHaveTwoWriters : Prop :=
  ∀ (i : Instr) (s t : State), exec i s = .next t →
    (t.err ≠ .ok ∨ i.opcode ≠ 0x3#4 ∧ i.opcode ≠ 0x4#4 → t.res0 = s.res0) ∧
    (t.err ≠ .ok ∨ i.opcode ≠ 0x4#4 → t.res1 = s.res1 ∧ t.res2 = s.res2 ∧ t.res3 = s.res3)

/-- Only SETFB writes FB_BASE and FB_VALID (R30, R35), only INIT the tables and INIT_DONE (R29, R44), and only COLWR and
DRAWBOX write memory (R59). That no instruction touches the host's inputs and replies or the count of free values is
about the model's own fields (log entries 7 and 10). -/
def Obligations.EachRegisterHasItsWriter : Prop :=
  ∀ (i : Instr) (s t : State), exec i s = .next t →
    (i.opcode ≠ 0x2#4 → t.fbBase = s.fbBase ∧ t.fbValid = s.fbValid) ∧
    (i.opcode ≠ 0x1#4 → t.colTable = s.colTable ∧ t.rowTable = s.rowTable ∧ t.initDone = s.initDone) ∧
    (i.opcode ≠ 0x5#4 → i.opcode ≠ 0x6#4 → t.mem = s.mem) ∧
    t.params = s.params ∧ t.inputs = s.inputs ∧ t.replies = s.replies ∧ t.fresh = s.fresh

/-- INIT_DONE, FB_VALID and ANYERR are cleared by reset only, and each is set only by the completion it records:
INIT_DONE by that of an INIT, FB_VALID by that of a SETFB, ANYERR by one with a code other than OK (R29, R30, R31). -/
def Obligations.StickyBitsAreClearedByResetOnly : Prop :=
  ∀ s t : State, step s = .next t → s.inputs.head? ≠ some .reset →
    (s.initDone = true → t.initDone = true) ∧ (s.fbValid = true → t.fbValid = true) ∧
    (s.anyErr = true → t.anyErr = true) ∧
    (s.initDone = false → t.initDone = true → t.lastOp = 0x1#4 ∧ t.err = .ok ∧ t.engine = .idle) ∧
    (s.fbValid = false → t.fbValid = true → t.lastOp = 0x2#4 ∧ t.err = .ok ∧ t.engine = .idle) ∧
    (s.anyErr = false → t.anyErr = true → t.err ≠ .ok ∧ t.engine = .idle)

/-- The state after reset meets the invariant, whatever the parameters. -/
def Obligations.ResetStateMeetsTheInvariant : Prop :=
  ∀ (p : Params) (n : Nat), (State.resetWith p n).Inv ∧ State.reset.Inv

/-- Every step keeps the invariant, whatever the outside world does and in whatever state the engine is. -/
def Obligations.StepKeepsTheInvariant : Prop :=
  ∀ s t : State, s.Inv → step s = .next t → t.Inv

/-- A state that meets the invariant never stops: no input, no command word and no moment of a running command, except
an agent's access to a byte the memory space does not have (R68, R71, R252). -/
def Obligations.InvariantStatesNeverStop : Prop :=
  ∀ s : State, s.Inv →
    (∀ a, s.inputs.head? = some (.readByte a) → a < 2 ^ s.params.addrW.val) →
    (∀ a v, s.inputs.head? = some (.writeByte a v) → a < 2 ^ s.params.addrW.val) →
    ∃ t, step s = .next t

/-! ## The engine access by access (R43, R73 to R75, R241, R246) -/

/-- The engine that makes one access a step and the run of a whole command are the same machine: a submission followed
by as many engine steps as the command has accesses, and one for the completion, ends as the undisturbed run does
(R43, R73, R219). The two forms of a submission are log entry 7; that a stop at an access outside the port ends both runs
alike is log entry 9; that a step with no input left is a step of the engine is log entry 16. -/
def Obligations.EngineStepsMakeTheWholeCommand : Prop :=
  ∀ (s : State) (w : Command), s.engine = .idle → s.inputs = [.submit w] →
    Host.Core.run Sys2Proof.core ((commandAccesses w s).length + 2) s = step { s with inputs := [.command w] }

/-- Every running command completes: from RUNNING(w, k) the engine is idle again after the accesses that are left and
one step more, at most 17601 steps (R191, R252). -/
def Obligations.RunningCommandsComplete : Prop :=
  ∀ (s : State) (r : Running), s.Inv → s.engine = .running r →
    ∃ n t, n + r.done = (commandAccesses r.word s).length + 1 ∧ n ≤ 17601 ∧ runEngine n s = .next t ∧ t.engine = .idle

/-- A command stopped after k accesses: memory is what its first k accesses made of it, the registers, STATUS but for
BUSY included, still show what they held before it (R28, R36, R43, R246). -/
def Obligations.RunningCommandShowsOldRegisters : Prop :=
  ∀ (s : State) (w : Command) (k : Nat), s.Inv → s.engine = .idle → k ≤ (commandAccesses w s).length →
    ∃ t latch, runEngine k (s.accept w) = .next t ∧
      t = { s with
        mem := (s.port.performAll s.params.edgeMode [] ((commandAccesses w s).take k)).mem
        engine := .running { word := w, done := k, latch := latch, raced := [] } } ∧
      (∀ off, off ≠ 0 → t.readReg off = s.readReg off) ∧
      (∀ b, b ≠ 0 → t.statusReg.getLsbD b = s.statusReg.getLsbD b)

/-- Reset during a command: the k accesses already performed stand, no further one is made, and there is no completion
update (R241). That the host's pending inputs are kept is the model's choice (log entry 13). -/
def Obligations.ResetDuringACommandKeepsItsAccesses : Prop :=
  ∀ (s : State) (w : Command) (k : Nat) (rest : List Input), s.Inv → s.engine = .idle →
    k ≤ (commandAccesses w s).length →
    ∃ t u, runEngine k (s.accept w) = .next t ∧ step { t with inputs := .reset :: rest } = .next u ∧
      u.mem = (s.port.performAll s.params.edgeMode [] ((commandAccesses w s).take k)).mem ∧
      u.engine = .idle ∧ u.statusReg = 0#32 ∧ u.inputs = rest

/-- An agent that reads while a command runs sees each plane word either as before the command or as the command
leaves it (R75). -/
def Obligations.ReadersSeeOldOrNewWords : Prop :=
  ∀ (s : State) (w : Command) (k a : Nat), s.Inv → s.engine = .idle → k ≤ (commandAccesses w s).length → a % 2 = 0 →
    ∃ t u, runEngine k (s.accept w) = .next t ∧ runWord w s = .next u ∧
      (t.wordAt a = s.wordAt a ∨ t.wordAt a = u.wordAt a)

/-- A byte written by another agent while a command runs: at a byte the command does not touch it is plain memory; at
a byte of a plane word the command touches, only that word's two bytes may change, to a free value, and the command goes
on (R75). That the word takes its free value at the write and is marked until the command ends is log entry 3. -/
def Obligations.WritesWhileBusyReachOneWord : Prop :=
  ∀ (s : State) (r : Running) (a : Nat) (v : Byte) (rest : List Input), s.engine = .running r →
    s.inputs = .writeByte a v :: rest → a < 2 ^ s.params.addrW.val →
    ((∀ x ∈ commandAccesses r.word s, a < x.addr ∨ x.addr + 2 ≤ a) →
      step s = .next { s with inputs := rest, mem := Memory.writeByte s.mem a v }) ∧
    ((∃ x ∈ commandAccesses r.word s, x.addr ≤ a ∧ a < x.addr + 2) →
      ∃ t b, step s = .next t ∧ touchedWord (commandAccesses r.word s) a = some b ∧
        (∃ x ∈ commandAccesses r.word s, x.addr = b) ∧ b ≤ a ∧ a < b + 2 ∧
        t.wordAt b = Config.racedWord s.fresh ∧
        (∀ d, d ≠ b → d ≠ b + 1 → t.byteAt d = s.byteAt d) ∧
        t = { s with
          inputs := rest
          mem := t.mem
          fresh := s.fresh + 1
          engine := .running { r with raced := b :: r.raced } })

/-- Broken exclusive access spoils only the words it reached: from any moment of a command, after k accesses, with any
set of words raced by then and any contents of them, the accesses that are left leave every other plane word as they do
undisturbed (R75). The word held for a write that comes next may differ only where that write is to a raced word. -/
def Obligations.RacesSpoilOnlyTheRacedWords : Prop :=
  ∀ (s : State) (w : Command) (k : Nat) (raced : List Nat) (p q : Port), s.Inv → (∀ a ∈ raced, a % 2 = 0) →
    (∀ a, a % 2 = 0 → a ∉ raced → Memory.readWord p.mem a = Memory.readWord q.mem a) →
    (∀ a role i m c, (commandAccesses w s)[k]? = some (.merge a role i m c) → p.latch = q.latch ∨ a ∈ raced) →
    ∀ a, a % 2 = 0 → a ∉ raced →
      Memory.readWord (p.performAll s.params.edgeMode raced ((commandAccesses w s).drop k)).mem a =
        Memory.readWord (q.performAll s.params.edgeMode [] ((commandAccesses w s).drop k)).mem a

/-- The same of whole runs: whatever bytes another agent writes, and between whichever accesses of a command they land,
also after its completion, the machine does not stop, every plane word with no byte written ends as after as many engine
steps undisturbed, and so does every register, STATUS included (R75; the free values are log entry 3). -/
def Obligations.WritesDuringACommandSpoilOnlyTheirWords : Prop :=
  ∀ (s : State) (w : Command) (inputs : List Input), s.Inv → s.engine = .idle →
    (∀ input ∈ inputs, input = .engine ∨ ∃ a v, input = .writeByte a v ∧ a < 2 ^ s.params.addrW.val) →
    ∃ t u : State,
      Host.Core.run Sys2Proof.core inputs.length { s.accept w with inputs := inputs } = .next t ∧
      runEngine (inputs.count .engine) { s.accept w with inputs := [] } = .next u ∧
      t = { u with mem := t.mem, fresh := t.fresh, engine := t.engine } ∧ t.busy = u.busy ∧
      ∀ a, a % 2 = 0 → (∀ b v, .writeByte b v ∈ inputs → b ≠ a ∧ b ≠ a + 1) → t.wordAt a = u.wordAt a
end

