-- ==== Sys2Proof/Laws/Bits.lean ====
section
/-! SUPPORT. Bit-field arithmetic: an append and an extracted field as sums and remainders of naturals, so that a claim
about the fields of a word becomes linear arithmetic. -/

namespace Sys2Proof.Laws

theorem toNat_append_add {n m : Nat} (x : BitVec n) (y : BitVec m) :
    (x ++ y).toNat = x.toNat * 2 ^ m + y.toNat := by
  rw [BitVec.toNat_append, Nat.shiftLeft_eq, ← Nat.shiftLeft_eq, Nat.shiftLeft_add_eq_or_of_lt y.isLt]

theorem toNat_extract {n : Nat} (x : BitVec n) (start len : Nat) :
    (x.extractLsb' start len).toNat = x.toNat / 2 ^ start % 2 ^ len := by
  rw [BitVec.extractLsb'_toNat, Nat.shiftRight_eq_div_pow]

theorem extract_eq_iff {n : Nat} (x : BitVec n) (start len : Nat) (y : BitVec len) :
    x.extractLsb' start len = y ↔ x.toNat / 2 ^ start % 2 ^ len = y.toNat := by
  rw [← BitVec.toNat_inj, toNat_extract]

end Sys2Proof.Laws
end

