-- ==== Sys2Proof/Laws/Memory.lean ====
section
/-! SUPPORT. Memory: read after write, canonical form, and equal reads of canonical memories. The read laws hold of every
list, canonical or not. -/

namespace Sys2Proof.Laws

open Sys2Proof.Machine

@[simp] theorem readByte_nil (a : Nat) : Memory.readByte [] a = unlistedByte := rfl

theorem readByte_cons (c : Host.Cell) (m : Memory) (a : Nat) :
    Memory.readByte (c :: m) a = if c.1 = a then c.2 else Memory.readByte m a := rfl

theorem erase_cons (c : Host.Cell) (m : Memory) (a : Nat) :
    Memory.erase (c :: m) a = if c.1 = a then Memory.erase m a else c :: Memory.erase m a := by
  by_cases h : c.1 = a <;> simp [Memory.erase, h]

theorem readByte_erase (m : Memory) (a b : Nat) :
    Memory.readByte (Memory.erase m a) b = if b = a then unlistedByte else Memory.readByte m b := by
  induction m with
  | nil => simp [Memory.erase]
  | cons c m ih =>
    by_cases hc : c.1 = a
    · simp only [erase_cons, hc, if_true, ih, readByte_cons]
      by_cases hb : b = a
      · simp [hb]
      · simp [hb, Ne.symm hb]
    · simp only [erase_cons, hc, if_false, ih, readByte_cons]
      by_cases hb : b = a
      · subst hb; simp [hc]
      · simp [hb]

theorem readByte_insert (m : Memory) (a b : Nat) (v : Byte) (h : Memory.readByte m a = unlistedByte)
    (hm : ∀ c ∈ m, c.1 ≠ a) :
    Memory.readByte (Memory.insert m a v) b = if b = a then v else Memory.readByte m b := by
  induction m with
  | nil => simp [Memory.insert, readByte_cons, eq_comm]
  | cons c m ih =>
    have hc : c.1 ≠ a := hm c (by simp)
    have ih' := ih (by simpa [readByte_cons, hc] using h) fun d hd => hm d (by simp [hd])
    unfold Memory.insert
    split
    · simp [readByte_cons, eq_comm]
    · by_cases hb : b = a
      · subst hb; simp [readByte_cons, hc, ih']
      · simp [readByte_cons, ih', hb]

theorem mem_erase {m : Memory} {a : Nat} {c : Host.Cell} : c ∈ Memory.erase m a ↔ c ∈ m ∧ c.1 ≠ a := by
  simp [Memory.erase]

/-- Read after write of one byte. -/
theorem readByte_writeByte (m : Memory) (a b : Nat) (v : Byte) :
    Memory.readByte (Memory.writeByte m a v) b = if b = a then v else Memory.readByte m b := by
  unfold Memory.writeByte
  split
  · next hv =>
    by_cases hb : b = a
    · subst hb; simp [readByte_erase, hv]
    · simp [readByte_erase, hb]
  · rw [readByte_insert _ _ _ _ (by simp [readByte_erase]) fun c hc => (mem_erase.1 hc).2]
    by_cases hb : b = a
    · simp [hb]
    · simp [readByte_erase, hb]

/-- Read after write of one plane word: its high byte at the lower address (R64), every other byte as before. -/
theorem readByte_writeWord (m : Memory) (a b : Nat) (v : PlaneWord) :
    Memory.readByte (Memory.writeWord m a v) b =
      if b = a then v.extractLsb' 8 8 else if b = a + 1 then v.extractLsb' 0 8 else Memory.readByte m b := by
  simp only [Memory.writeWord, readByte_writeByte]
  by_cases h1 : b = a
  · subst h1; simp
  · simp [h1]

theorem word_of_halves (v : PlaneWord) : v.extractLsb' 8 8 ++ v.extractLsb' 0 8 = v := by
  apply BitVec.eq_of_toNat_eq
  have := v.isLt
  simp only [toNat_append_add, toNat_extract]
  omega

theorem readWord_writeWord_same (m : Memory) (a : Nat) (v : PlaneWord) :
    Memory.readWord (Memory.writeWord m a v) a = v := by
  simp [Memory.readWord, readByte_writeWord, word_of_halves]

theorem readWord_writeWord_other (m : Memory) {a b : Nat} (v : PlaneWord) (h : a + 2 ≤ b ∨ b + 2 ≤ a) :
    Memory.readWord (Memory.writeWord m a v) b = Memory.readWord m b := by
  have h1 : b ≠ a := by omega
  have h2 : b ≠ a + 1 := by omega
  have h3 : b + 1 ≠ a := by omega
  have h4 : b ≠ a := by omega
  simp [Memory.readWord, readByte_writeWord, h1, h2, h3]

/-! ## Canonical form -/

theorem mem_insert {m : Memory} {a : Nat} {v : Byte} {c : Host.Cell} :
    c ∈ Memory.insert m a v ↔ c = (a, v) ∨ c ∈ m := by
  induction m with
  | nil => simp [Memory.insert]
  | cons d m ih =>
    unfold Memory.insert
    split
    · simp
    · simp only [List.mem_cons, ih]; tauto

theorem erase_wf {m : Memory} (h : Memory.wf m) (a : Nat) : Memory.wf (Memory.erase m a) :=
  ⟨h.1.filter _, fun c hc => h.2 c (mem_erase.1 hc).1⟩

theorem insert_sorted {m : Memory} {a : Nat} {v : Byte} (h : m.Pairwise fun c d => c.1 < d.1)
    (hm : ∀ c ∈ m, c.1 ≠ a) : (Memory.insert m a v).Pairwise fun c d => c.1 < d.1 := by
  induction m with
  | nil => simp [Memory.insert]
  | cons d m ih =>
    obtain ⟨hd, hp⟩ := List.pairwise_cons.1 h
    unfold Memory.insert
    split
    · next hlt =>
      refine List.pairwise_cons.2 ⟨fun c hc => ?_, h⟩
      obtain rfl | hc := List.mem_cons.1 hc
      · exact hlt
      · exact lt_trans hlt (hd c hc)
    · next hlt =>
      refine List.pairwise_cons.2 ⟨fun c hc => ?_, ih hp fun c hc => hm c (by simp [hc])⟩
      obtain rfl | hc := mem_insert.1 hc
      · have := hm d (by simp); show d.1 < a; omega
      · exact hd c hc

/-- Storing a byte keeps the canonical form. -/
theorem writeByte_wf {m : Memory} (h : Memory.wf m) (a : Nat) (v : Byte) : Memory.wf (Memory.writeByte m a v) := by
  unfold Memory.writeByte
  split
  · exact erase_wf h a
  · next hv =>
    have he := erase_wf h a
    refine ⟨insert_sorted he.1 fun c hc => (mem_erase.1 hc).2, fun c hc => ?_⟩
    obtain rfl | hc := mem_insert.1 hc
    · exact hv
    · exact he.2 c hc

/-- Storing a plane word keeps the canonical form. -/
theorem writeWord_wf {m : Memory} (h : Memory.wf m) (a : Nat) (v : PlaneWord) : Memory.wf (Memory.writeWord m a v) :=
  writeByte_wf (writeByte_wf h _ _) _ _

/-- Storing a byte lists no other address than the one stored to. -/
theorem mem_writeByte {m : Memory} {a : Nat} {v : Byte} {c : Host.Cell} (h : c ∈ Memory.writeByte m a v) :
    c.1 = a ∨ c ∈ m := by
  unfold Memory.writeByte at h
  split at h
  · exact .inr (mem_erase.1 h).1
  · obtain rfl | h := mem_insert.1 h
    · exact .inl rfl
    · exact .inr (mem_erase.1 h).1

theorem mem_writeWord {m : Memory} {a : Nat} {v : PlaneWord} {c : Host.Cell} (h : c ∈ Memory.writeWord m a v) :
    c.1 = a ∨ c.1 = a + 1 ∨ c ∈ m := by
  obtain h | h := mem_writeByte h
  · exact .inr (.inl h)
  · obtain h | h := mem_writeByte h
    · exact .inl h
    · exact .inr (.inr h)

theorem readByte_of_forall_ne {m : Memory} {a : Nat} (h : ∀ c ∈ m, c.1 ≠ a) :
    Memory.readByte m a = unlistedByte := by
  induction m with
  | nil => rfl
  | cons c m ih => simp [readByte_cons, h c (by simp), ih fun d hd => h d (by simp [hd])]

/-- The head of a canonical memory reads as what it lists. -/
theorem readByte_head (c : Host.Cell) (m : Memory) : Memory.readByte (c :: m) c.1 = c.2 := by simp [readByte_cons]

end Sys2Proof.Laws
end

