-- ==== Sys2Proof/Laws/State.lean ====
section
/-! SUPPORT. One lemma per field per update of the state, so that no later proof unfolds a record update. -/

namespace Sys2Proof.Laws

open Sys2Proof.Machine

section Finish
variable (s : State) (op : Opcode) (e : ErrCode)

@[simp] theorem finish_params : (s.finish op e).params = s.params := rfl

@[simp] theorem finish_engine : (s.finish op e).engine = .idle := rfl

@[simp] theorem finish_initDone : (s.finish op e).initDone = s.initDone := rfl

@[simp] theorem finish_fbValid : (s.finish op e).fbValid = s.fbValid := rfl

@[simp] theorem finish_anyErr : (s.finish op e).anyErr = stickyError s.anyErr e := rfl

@[simp] theorem finish_err : (s.finish op e).err = e := rfl

@[simp] theorem finish_lastOp : (s.finish op e).lastOp = op := rfl

@[simp] theorem finish_fbBase : (s.finish op e).fbBase = s.fbBase := rfl

@[simp] theorem finish_res0 : (s.finish op e).res0 = s.res0 := rfl

@[simp] theorem finish_res1 : (s.finish op e).res1 = s.res1 := rfl

@[simp] theorem finish_res2 : (s.finish op e).res2 = s.res2 := rfl

@[simp] theorem finish_res3 : (s.finish op e).res3 = s.res3 := rfl

@[simp] theorem finish_colTable : (s.finish op e).colTable = s.colTable := rfl

@[simp] theorem finish_rowTable : (s.finish op e).rowTable = s.rowTable := rfl

@[simp] theorem finish_mem : (s.finish op e).mem = s.mem := rfl

@[simp] theorem finish_inputs : (s.finish op e).inputs = s.inputs := rfl

@[simp] theorem finish_replies : (s.finish op e).replies = s.replies := rfl

@[simp] theorem finish_fresh : (s.finish op e).fresh = s.fresh := rfl

@[simp] theorem finish_busy : (s.finish op e).busy = false := rfl

@[simp] theorem raiseError_eq_finish : s.raiseError op e = s.finish op e := rfl

end Finish

section Complete
variable (s : State) (op : Opcode) (eff : Effect)

@[simp] theorem complete_eq_finish : s.complete op eff = (s.applyEffect eff).finish op .ok := rfl

@[simp] theorem applyEffect_params : (s.applyEffect eff).params = s.params := by cases eff <;> rfl

@[simp] theorem applyEffect_engine : (s.applyEffect eff).engine = s.engine := by cases eff <;> rfl

@[simp] theorem applyEffect_anyErr : (s.applyEffect eff).anyErr = s.anyErr := by cases eff <;> rfl

@[simp] theorem applyEffect_err : (s.applyEffect eff).err = s.err := by cases eff <;> rfl

@[simp] theorem applyEffect_lastOp : (s.applyEffect eff).lastOp = s.lastOp := by cases eff <;> rfl

@[simp] theorem applyEffect_mem : (s.applyEffect eff).mem = s.mem := by cases eff <;> rfl

@[simp] theorem applyEffect_inputs : (s.applyEffect eff).inputs = s.inputs := by cases eff <;> rfl

@[simp] theorem applyEffect_replies : (s.applyEffect eff).replies = s.replies := by cases eff <;> rfl

@[simp] theorem applyEffect_fresh : (s.applyEffect eff).fresh = s.fresh := by cases eff <;> rfl

end Complete

section Accesses
variable (s : State) (xs : List Access)

@[simp] theorem performAccesses_params : (s.performAccesses xs).params = s.params := rfl

@[simp] theorem performAccesses_engine : (s.performAccesses xs).engine = s.engine := rfl

@[simp] theorem performAccesses_initDone : (s.performAccesses xs).initDone = s.initDone := rfl

@[simp] theorem performAccesses_fbValid : (s.performAccesses xs).fbValid = s.fbValid := rfl

@[simp] theorem performAccesses_anyErr : (s.performAccesses xs).anyErr = s.anyErr := rfl

@[simp] theorem performAccesses_err : (s.performAccesses xs).err = s.err := rfl

@[simp] theorem performAccesses_lastOp : (s.performAccesses xs).lastOp = s.lastOp := rfl

@[simp] theorem performAccesses_fbBase : (s.performAccesses xs).fbBase = s.fbBase := rfl

@[simp] theorem performAccesses_res0 : (s.performAccesses xs).res0 = s.res0 := rfl

@[simp] theorem performAccesses_res1 : (s.performAccesses xs).res1 = s.res1 := rfl

@[simp] theorem performAccesses_res2 : (s.performAccesses xs).res2 = s.res2 := rfl

@[simp] theorem performAccesses_res3 : (s.performAccesses xs).res3 = s.res3 := rfl

@[simp] theorem performAccesses_colTable : (s.performAccesses xs).colTable = s.colTable := rfl

@[simp] theorem performAccesses_rowTable : (s.performAccesses xs).rowTable = s.rowTable := rfl

@[simp] theorem performAccesses_mem : (s.performAccesses xs).mem = (s.port.performAll s.params.edgeMode [] xs).mem := rfl

@[simp] theorem performAccesses_inputs : (s.performAccesses xs).inputs = s.inputs := rfl

@[simp] theorem performAccesses_replies : (s.performAccesses xs).replies = s.replies := rfl

@[simp] theorem performAccesses_fresh : (s.performAccesses xs).fresh = (s.port.performAll s.params.edgeMode [] xs).fresh := rfl

end Accesses

section Accept
variable (s : State) (w : Command)

@[simp] theorem accept_params : (s.accept w).params = s.params := rfl

@[simp] theorem accept_engine : (s.accept w).engine = .running { word := w, done := 0, latch := 0#16, raced := [] } := rfl

@[simp] theorem accept_initDone : (s.accept w).initDone = s.initDone := rfl

@[simp] theorem accept_fbValid : (s.accept w).fbValid = s.fbValid := rfl

@[simp] theorem accept_anyErr : (s.accept w).anyErr = s.anyErr := rfl

@[simp] theorem accept_err : (s.accept w).err = s.err := rfl

@[simp] theorem accept_lastOp : (s.accept w).lastOp = s.lastOp := rfl

@[simp] theorem accept_fbBase : (s.accept w).fbBase = s.fbBase := rfl

@[simp] theorem accept_res0 : (s.accept w).res0 = s.res0 := rfl

@[simp] theorem accept_res1 : (s.accept w).res1 = s.res1 := rfl

@[simp] theorem accept_res2 : (s.accept w).res2 = s.res2 := rfl

@[simp] theorem accept_res3 : (s.accept w).res3 = s.res3 := rfl

@[simp] theorem accept_colTable : (s.accept w).colTable = s.colTable := rfl

@[simp] theorem accept_rowTable : (s.accept w).rowTable = s.rowTable := rfl

@[simp] theorem accept_mem : (s.accept w).mem = s.mem := rfl

@[simp] theorem accept_inputs : (s.accept w).inputs = s.inputs := rfl

@[simp] theorem accept_replies : (s.accept w).replies = s.replies := rfl

@[simp] theorem accept_fresh : (s.accept w).fresh = s.fresh := rfl

@[simp] theorem accept_busy : (s.accept w).busy = true := rfl

end Accept

section DropInput
variable (s : State)

@[simp] theorem dropInput_params : (s.dropInput).params = s.params := rfl

@[simp] theorem dropInput_engine : (s.dropInput).engine = s.engine := rfl

@[simp] theorem dropInput_initDone : (s.dropInput).initDone = s.initDone := rfl

@[simp] theorem dropInput_fbValid : (s.dropInput).fbValid = s.fbValid := rfl

@[simp] theorem dropInput_anyErr : (s.dropInput).anyErr = s.anyErr := rfl

@[simp] theorem dropInput_err : (s.dropInput).err = s.err := rfl

@[simp] theorem dropInput_lastOp : (s.dropInput).lastOp = s.lastOp := rfl

@[simp] theorem dropInput_fbBase : (s.dropInput).fbBase = s.fbBase := rfl

@[simp] theorem dropInput_res0 : (s.dropInput).res0 = s.res0 := rfl

@[simp] theorem dropInput_res1 : (s.dropInput).res1 = s.res1 := rfl

@[simp] theorem dropInput_res2 : (s.dropInput).res2 = s.res2 := rfl

@[simp] theorem dropInput_res3 : (s.dropInput).res3 = s.res3 := rfl

@[simp] theorem dropInput_colTable : (s.dropInput).colTable = s.colTable := rfl

@[simp] theorem dropInput_rowTable : (s.dropInput).rowTable = s.rowTable := rfl

@[simp] theorem dropInput_mem : (s.dropInput).mem = s.mem := rfl

@[simp] theorem dropInput_inputs : (s.dropInput).inputs = s.inputs.tail := rfl

@[simp] theorem dropInput_replies : (s.dropInput).replies = s.replies := rfl

@[simp] theorem dropInput_fresh : (s.dropInput).fresh = s.fresh := rfl

end DropInput

section HostReadReg
variable (s : State) (off : Nat)

@[simp] theorem hostReadReg_params : (s.hostReadReg off).params = s.params := rfl

@[simp] theorem hostReadReg_engine : (s.hostReadReg off).engine = s.engine := rfl

@[simp] theorem hostReadReg_initDone : (s.hostReadReg off).initDone = s.initDone := rfl

@[simp] theorem hostReadReg_fbValid : (s.hostReadReg off).fbValid = s.fbValid := rfl

@[simp] theorem hostReadReg_anyErr : (s.hostReadReg off).anyErr = s.anyErr := rfl

@[simp] theorem hostReadReg_err : (s.hostReadReg off).err = s.err := rfl

@[simp] theorem hostReadReg_lastOp : (s.hostReadReg off).lastOp = s.lastOp := rfl

@[simp] theorem hostReadReg_fbBase : (s.hostReadReg off).fbBase = s.fbBase := rfl

@[simp] theorem hostReadReg_res0 : (s.hostReadReg off).res0 = s.res0 := rfl

@[simp] theorem hostReadReg_res1 : (s.hostReadReg off).res1 = s.res1 := rfl

@[simp] theorem hostReadReg_res2 : (s.hostReadReg off).res2 = s.res2 := rfl

@[simp] theorem hostReadReg_res3 : (s.hostReadReg off).res3 = s.res3 := rfl

@[simp] theorem hostReadReg_colTable : (s.hostReadReg off).colTable = s.colTable := rfl

@[simp] theorem hostReadReg_rowTable : (s.hostReadReg off).rowTable = s.rowTable := rfl

@[simp] theorem hostReadReg_mem : (s.hostReadReg off).mem = s.mem := rfl

@[simp] theorem hostReadReg_inputs : (s.hostReadReg off).inputs = s.inputs := rfl

@[simp] theorem hostReadReg_replies : (s.hostReadReg off).replies = .register off (s.readReg off) :: s.replies := rfl

@[simp] theorem hostReadReg_fresh : (s.hostReadReg off).fresh = s.fresh := rfl

end HostReadReg

section Reset
variable (s : State)

@[simp] theorem assertReset_params : (s.assertReset).params = s.params := rfl

@[simp] theorem assertReset_engine : (s.assertReset).engine = .idle := rfl

@[simp] theorem assertReset_initDone : (s.assertReset).initDone = false := rfl

@[simp] theorem assertReset_fbValid : (s.assertReset).fbValid = false := rfl

@[simp] theorem assertReset_anyErr : (s.assertReset).anyErr = false := rfl

@[simp] theorem assertReset_err : (s.assertReset).err = .ok := rfl

@[simp] theorem assertReset_lastOp : (s.assertReset).lastOp = 0#4 := rfl

@[simp] theorem assertReset_fbBase : (s.assertReset).fbBase = 0#32 := rfl

@[simp] theorem assertReset_res0 : (s.assertReset).res0 = 0#32 := rfl

@[simp] theorem assertReset_res1 : (s.assertReset).res1 = 0#32 := rfl

@[simp] theorem assertReset_res2 : (s.assertReset).res2 = 0#32 := rfl

@[simp] theorem assertReset_res3 : (s.assertReset).res3 = 0#32 := rfl

@[simp] theorem assertReset_colTable : (s.assertReset).colTable = Vector.ofFn (Config.unspecifiedCol s.fresh) := rfl

@[simp] theorem assertReset_rowTable : (s.assertReset).rowTable = Vector.ofFn (Config.unspecifiedRow s.fresh) := rfl

@[simp] theorem assertReset_mem : (s.assertReset).mem = s.mem := rfl

@[simp] theorem assertReset_inputs : (s.assertReset).inputs = s.inputs := rfl

@[simp] theorem assertReset_replies : (s.assertReset).replies = s.replies := rfl

@[simp] theorem assertReset_fresh : (s.assertReset).fresh = s.fresh + 1 := rfl

end Reset

section Disturb
variable (s : State) (r : Running) (xs : List Access) (addr : Nat) (v : Byte)

@[simp] theorem disturb_params : (s.disturb r xs addr v).params = s.params := by
  unfold State.disturb; split <;> rfl

@[simp] theorem disturb_initDone : (s.disturb r xs addr v).initDone = s.initDone := by
  unfold State.disturb; split <;> rfl

@[simp] theorem disturb_fbValid : (s.disturb r xs addr v).fbValid = s.fbValid := by
  unfold State.disturb; split <;> rfl

@[simp] theorem disturb_anyErr : (s.disturb r xs addr v).anyErr = s.anyErr := by
  unfold State.disturb; split <;> rfl

@[simp] theorem disturb_err : (s.disturb r xs addr v).err = s.err := by
  unfold State.disturb; split <;> rfl

@[simp] theorem disturb_lastOp : (s.disturb r xs addr v).lastOp = s.lastOp := by
  unfold State.disturb; split <;> rfl

@[simp] theorem disturb_fbBase : (s.disturb r xs addr v).fbBase = s.fbBase := by
  unfold State.disturb; split <;> rfl

@[simp] theorem disturb_res0 : (s.disturb r xs addr v).res0 = s.res0 := by
  unfold State.disturb; split <;> rfl

@[simp] theorem disturb_res1 : (s.disturb r xs addr v).res1 = s.res1 := by
  unfold State.disturb; split <;> rfl

@[simp] theorem disturb_res2 : (s.disturb r xs addr v).res2 = s.res2 := by
  unfold State.disturb; split <;> rfl

@[simp] theorem disturb_res3 : (s.disturb r xs addr v).res3 = s.res3 := by
  unfold State.disturb; split <;> rfl

@[simp] theorem disturb_colTable : (s.disturb r xs addr v).colTable = s.colTable := by
  unfold State.disturb; split <;> rfl

@[simp] theorem disturb_rowTable : (s.disturb r xs addr v).rowTable = s.rowTable := by
  unfold State.disturb; split <;> rfl

@[simp] theorem disturb_inputs : (s.disturb r xs addr v).inputs = s.inputs := by
  unfold State.disturb; split <;> rfl

@[simp] theorem disturb_replies : (s.disturb r xs addr v).replies = s.replies := by
  unfold State.disturb; split <;> rfl

end Disturb

end Sys2Proof.Laws
end

