-- ==== Sys2Proof/Laws/Access.lean ====
section
/-! SUPPORT. The memory port: what one access and a list of accesses can change. -/

namespace Sys2Proof.Laws

open Sys2Proof.Machine

variable {mode : EdgeMode} {raced : List Nat}

/-- Everything one access can do: it reads a word and holds it, or it stores one plane word at its own address and
keeps what it holds. -/
theorem perform_cases (p : Port) (x : Access) :
    (x.isWrite = false ∧ Port.perform mode raced p x = { p with latch := Memory.readWord p.mem x.addr }) ∨
    (x.isWrite = true ∧ ∃ v n, Port.perform mode raced p x =
      { p with mem := Memory.writeWord p.mem x.addr v, fresh := n }) := by
  cases x with
  | read a => exact .inl ⟨rfl, rfl⟩
  | write a v =>
    refine .inr ⟨rfl, ?_⟩
    simp only [Port.perform, Port.store]
    split
    · exact ⟨_, _, rfl⟩
    · exact ⟨v, p.fresh, rfl⟩
  | merge a role i m c =>
    refine .inr ⟨rfl, ?_⟩
    simp only [Port.perform, Port.store]
    split
    · exact ⟨_, _, rfl⟩
    · exact ⟨_, p.fresh, rfl⟩

/-- An access leaves every byte outside the plane word it stores as it was. -/
theorem perform_byte (p : Port) (x : Access) (b : Nat)
    (h : x.isWrite = true → b < x.addr ∨ x.addr + 2 ≤ b) :
    Memory.readByte (Port.perform mode raced p x).mem b = Memory.readByte p.mem b := by
  obtain ⟨-, e⟩ | ⟨hw, v, n, e⟩ := perform_cases (mode := mode) (raced := raced) p x
  · rw [e]
  · rw [e]
    have := h hw
    have h1 : b ≠ x.addr := by omega
    have h2 : b ≠ x.addr + 1 := by omega
    simp [readByte_writeWord, h1, h2]

theorem perform_wf {p : Port} (h : Memory.wf p.mem) (x : Access) :
    Memory.wf (Port.perform mode raced p x).mem := by
  obtain ⟨-, e⟩ | ⟨-, v, n, e⟩ := perform_cases (mode := mode) (raced := raced) p x <;> rw [e]
  · exact h
  · exact writeWord_wf h _ _

theorem perform_bounded {p : Port} {bound : Nat} (h : ∀ c ∈ p.mem, c.1 < bound) (x : Access)
    (hx : x.addr + 2 ≤ bound) : ∀ c ∈ (Port.perform mode raced p x).mem, c.1 < bound := by
  obtain ⟨-, e⟩ | ⟨-, v, n, e⟩ := perform_cases (mode := mode) (raced := raced) p x <;> rw [e]
  · exact h
  · intro c hc
    obtain hc | hc | hc := mem_writeWord hc
    · omega
    · omega
    · exact h c hc

/-- With no other agent writing, an access draws no free value. -/
theorem perform_fresh (p : Port) (x : Access) : (Port.perform mode [] p x).fresh = p.fresh := by
  cases x <;> simp [Port.perform, Port.store]

/-! ## Lists of accesses -/

@[simp] theorem performAll_nil (p : Port) : Port.performAll mode raced p [] = p := rfl

@[simp] theorem performAll_cons (p : Port) (x : Access) (xs : List Access) :
    Port.performAll mode raced p (x :: xs) = Port.performAll mode raced (Port.perform mode raced p x) xs := rfl

theorem performAll_append (p : Port) (xs ys : List Access) :
    Port.performAll mode raced p (xs ++ ys) = Port.performAll mode raced (Port.performAll mode raced p xs) ys := by
  simp [Port.performAll]

/-- A list of accesses leaves every byte outside the plane words it stores as it was. -/
theorem performAll_byte (xs : List Access) (p : Port) (b : Nat)
    (h : ∀ x ∈ xs, x.isWrite = true → b < x.addr ∨ x.addr + 2 ≤ b) :
    Memory.readByte (Port.performAll mode raced p xs).mem b = Memory.readByte p.mem b := by
  induction xs generalizing p with
  | nil => rfl
  | cons x xs ih =>
    rw [performAll_cons, ih _ fun y hy => h y (by simp [hy])]
    exact perform_byte p x b (h x (by simp))

theorem performAll_wf {p : Port} (h : Memory.wf p.mem) (xs : List Access) :
    Memory.wf (Port.performAll mode raced p xs).mem := by
  induction xs generalizing p with
  | nil => exact h
  | cons x xs ih => exact ih (perform_wf h x)

theorem performAll_bounded {bound : Nat} (xs : List Access) {p : Port} (h : ∀ c ∈ p.mem, c.1 < bound)
    (hx : ∀ x ∈ xs, x.addr + 2 ≤ bound) : ∀ c ∈ (Port.performAll mode raced p xs).mem, c.1 < bound := by
  induction xs generalizing p with
  | nil => exact h
  | cons x xs ih =>
    exact ih (perform_bounded h x (hx x (by simp))) fun y hy => hx y (by simp [hy])

theorem performAll_fresh (xs : List Access) (p : Port) :
    (Port.performAll mode [] p xs).fresh = p.fresh := by
  induction xs generalizing p with
  | nil => rfl
  | cons x xs ih => rw [performAll_cons, ih, perform_fresh]

/-- The plane word at `b` after a list of accesses none of which stores to a word that overlaps it. -/
theorem performAll_word_untouched (xs : List Access) (p : Port) (b : Nat)
    (h : ∀ x ∈ xs, x.isWrite = true → b + 2 ≤ x.addr ∨ x.addr + 2 ≤ b) :
    Memory.readWord (Port.performAll mode raced p xs).mem b = Memory.readWord p.mem b := by
  unfold Memory.readWord
  rw [performAll_byte xs p b fun x hx hw => by have := h x hx hw; omega,
    performAll_byte xs p (b + 1) fun x hx hw => by have := h x hx hw; omega]

theorem portHas_iff {params : Params} {a : Nat} :
    portHas params a = true ↔ a % 2 = 0 ∧ a + 2 ≤ 2 ^ params.addrW.val := by simp [portHas]

/-- No word is touched exactly when no access is to a word that holds the byte. -/
theorem touchedWord_none {xs : List Access} {a : Nat} :
    touchedWord xs a = none ↔ ∀ x ∈ xs, a < x.addr ∨ x.addr + 2 ≤ a := by
  simp only [touchedWord, List.find?_eq_none, List.mem_map, forall_exists_index, and_imp,
    forall_apply_eq_imp_iff₂, decide_eq_true_eq]
  exact forall₂_congr fun x _ => by omega

end Sys2Proof.Laws
end

