-- ==== Sys2Proof/Laws/Columns.lean ====
section
/-! SUPPORT. The column write (R164) and a sequence of column writes: what each plane word holds afterwards, and that every
other byte is as before. -/

namespace Sys2Proof.Laws

open Sys2Proof.Machine

variable {mode : EdgeMode}

/-- The plane word a column write leaves, from the word it found (R162 to R164). -/
def columnWord (mode : EdgeMode) (role : Role) (m : PlaneWord) (c : Color) (i : Fin 4) (old : PlaneWord) :
    PlaneWord := compose mode role i old m (planePattern c i)

/-- FULL overwrites under either mode (R162, R163). -/
theorem compose_full (i : Fin 4) (p m c : PlaneWord) : compose mode .full i p m c = c := by cases mode <;> rfl

theorem columnWrite_full (s : State) (off : Nat) (m : PlaneWord) (c : Color) :
    columnWrite s off m c .full =
      [.write (s.fbBase.toNat + off + 0) (planePattern c 0), .write (s.fbBase.toNat + off + 2) (planePattern c 1),
       .write (s.fbBase.toNat + off + 4) (planePattern c 2), .write (s.fbBase.toNat + off + 6) (planePattern c 3)] :=
  rfl

theorem columnWrite_masked (s : State) (off : Nat) (m : PlaneWord) (c : Color) {role : Role} (h : role ≠ .full) :
    columnWrite s off m c role =
      [.read (s.fbBase.toNat + off + 0), .merge (s.fbBase.toNat + off + 0) role 0 m (planePattern c 0),
       .read (s.fbBase.toNat + off + 2), .merge (s.fbBase.toNat + off + 2) role 1 m (planePattern c 1),
       .read (s.fbBase.toNat + off + 4), .merge (s.fbBase.toNat + off + 4) role 2 m (planePattern c 2),
       .read (s.fbBase.toNat + off + 6), .merge (s.fbBase.toNat + off + 6) role 3 m (planePattern c 3)] := by
  simp [columnWrite, h]

/-- Every access of a column write is to one of the column's four plane words. -/
theorem columnWrite_addr {s : State} {off : Nat} {m : PlaneWord} {c : Color} {role : Role} {x : Access}
    (h : x ∈ columnWrite s off m c role) : ∃ i : Fin 4, x.addr = s.fbBase.toNat + off + 2 * i.val := by
  by_cases hr : role = .full
  · subst hr
    simp only [columnWrite_full, List.mem_cons, List.not_mem_nil, or_false] at h
    obtain rfl | rfl | rfl | rfl := h
    exacts [⟨0, rfl⟩, ⟨1, rfl⟩, ⟨2, rfl⟩, ⟨3, rfl⟩]
  · simp only [columnWrite_masked s off m c hr, List.mem_cons, List.not_mem_nil, or_false] at h
    obtain rfl | rfl | rfl | rfl | rfl | rfl | rfl | rfl := h
    exacts [⟨0, rfl⟩, ⟨0, rfl⟩, ⟨1, rfl⟩, ⟨1, rfl⟩, ⟨2, rfl⟩, ⟨2, rfl⟩, ⟨3, rfl⟩, ⟨3, rfl⟩]

theorem columnWrite_length (s : State) (off : Nat) (m : PlaneWord) (c : Color) (role : Role) :
    (columnWrite s off m c role).length = if role = .full then 4 else 8 := by
  by_cases hr : role = .full
  · simp [hr, columnWrite_full]
  · simp [hr, columnWrite_masked]

/-- The plane words a column write stores to, in order. -/
theorem columnWrite_stores (s : State) (off : Nat) (m : PlaneWord) (c : Color) (role : Role) :
    ((columnWrite s off m c role).filter Access.isWrite).map Access.addr =
      [s.fbBase.toNat + off + 0, s.fbBase.toNat + off + 2, s.fbBase.toNat + off + 4, s.fbBase.toNat + off + 6] := by
  by_cases hr : role = .full
  · subst hr; rfl
  · rw [columnWrite_masked s off m c hr]; rfl

/-- A column write leaves every byte outside its column as it was. -/
theorem columnWrite_byte (s : State) (off : Nat) (m : PlaneWord) (c : Color) (role : Role) (p : Port) (b : Nat)
    (h : b < s.fbBase.toNat + off ∨ s.fbBase.toNat + off + 8 ≤ b) :
    Memory.readByte (Port.performAll mode [] p (columnWrite s off m c role)).mem b = Memory.readByte p.mem b :=
  performAll_byte _ p b fun x hx _ => by obtain ⟨i, hi⟩ := columnWrite_addr hx; omega

/-- A column write leaves in each plane word of its column what R162 or R163 composes from the word it found. -/
theorem columnWrite_word (s : State) (off : Nat) (m : PlaneWord) (c : Color) (role : Role) (p : Port) (i : Fin 4) :
    Memory.readWord (Port.performAll mode [] p (columnWrite s off m c role)).mem (s.fbBase.toNat + off + 2 * i.val) =
      columnWord mode role m c i (Memory.readWord p.mem (s.fbBase.toNat + off + 2 * i.val)) := by
  by_cases hr : role = .full
  · subst hr
    rw [columnWrite_full]
    fin_cases i <;>
      simp (disch := omega) [Port.perform, Port.store, columnWord, compose_full, readWord_writeWord_same,
        readWord_writeWord_other]
  · rw [columnWrite_masked s off m c hr]
    fin_cases i <;>
      simp (disch := omega) [Port.perform, Port.store, columnWord, readWord_writeWord_same,
        readWord_writeWord_other]

/-! ## A sequence of column writes -/

/-- One column write: the offset of its column, its set mask and its role. -/
structure Column where
  off : Nat
  mask : PlaneWord
  role : Role

/-- The accesses of a sequence of column writes. -/
def columnsAccesses (s : State) (c : Color) (cols : List Column) : List Access :=
  cols.flatMap fun col => columnWrite s col.off col.mask c col.role

theorem columnsAccesses_cons (s : State) (c : Color) (col : Column) (cols : List Column) :
    columnsAccesses s c (col :: cols) = columnWrite s col.off col.mask c col.role ++ columnsAccesses s c cols := rfl

theorem columnsAccesses_append (s : State) (c : Color) (xs ys : List Column) :
    columnsAccesses s c (xs ++ ys) = columnsAccesses s c xs ++ columnsAccesses s c ys := by
  simp [columnsAccesses]

theorem columnsAccesses_addr {s : State} {c : Color} {cols : List Column} {x : Access}
    (h : x ∈ columnsAccesses s c cols) :
    ∃ col ∈ cols, ∃ i : Fin 4, x.addr = s.fbBase.toNat + col.off + 2 * i.val := by
  obtain ⟨col, hc, hx⟩ := List.mem_flatMap.1 h
  exact ⟨col, hc, columnWrite_addr hx⟩

/-- Column writes leave every byte outside their columns as it was. -/
theorem columnsAccesses_byte (s : State) (c : Color) (cols : List Column) (p : Port) (b : Nat)
    (h : ∀ col ∈ cols, b < s.fbBase.toNat + col.off ∨ s.fbBase.toNat + col.off + 8 ≤ b) :
    Memory.readByte (Port.performAll mode [] p (columnsAccesses s c cols)).mem b = Memory.readByte p.mem b :=
  performAll_byte _ p b fun x hx _ => by
    obtain ⟨col, hc, i, hi⟩ := columnsAccesses_addr hx
    have := h col hc
    omega

/-- Two columns do not overlap. -/
abbrev Column.apart (a b : Column) : Prop := a.off + 8 ≤ b.off ∨ b.off + 8 ≤ a.off

/-- Writes of columns that do not overlap: each plane word of each column holds what its own column write composes
from the word the column held before all of them. -/
theorem columnsAccesses_word (s : State) (c : Color) (cols : List Column) (p : Port)
    (hp : cols.Pairwise Column.apart) (col : Column) (hc : col ∈ cols) (i : Fin 4) :
    Memory.readWord (Port.performAll mode [] p (columnsAccesses s c cols)).mem
        (s.fbBase.toNat + col.off + 2 * i.val) =
      columnWord mode col.role col.mask c i (Memory.readWord p.mem (s.fbBase.toNat + col.off + 2 * i.val)) := by
  induction cols generalizing p with
  | nil => cases hc
  | cons d cols ih =>
    obtain ⟨hd, hp'⟩ := List.pairwise_cons.1 hp
    rw [columnsAccesses_cons, performAll_append]
    obtain rfl | hc := List.mem_cons.1 hc
    · rw [performAll_word_untouched, columnWrite_word]
      intro x hx _
      obtain ⟨e, he, j, hj⟩ := columnsAccesses_addr hx
      have := hd e he
      unfold Column.apart at this
      omega
    · rw [ih _ hp' hc, performAll_word_untouched]
      intro x hx _
      obtain ⟨j, hj⟩ := columnWrite_addr hx
      have := hd col hc
      unfold Column.apart at this
      omega

/-- Every access of column writes inside the framebuffer is one the memory port has (R22, R81). -/
theorem columnsAccesses_port {s : State} (h : s.surfaceOk) {c : Color} {cols : List Column}
    (hc : ∀ col ∈ cols, col.off % 8 = 0 ∧ col.off ≤ 31992) :
    ∀ x ∈ columnsAccesses s c cols, portHas s.params x.addr = true := by
  intro x hx
  obtain ⟨col, hcol, i, hi⟩ := columnsAccesses_addr hx
  have := hc col hcol
  have := i.isLt
  obtain ⟨h1, h2⟩ := h
  rw [portHas_iff]
  omega

/-- The plane words column writes store to, in order. -/
theorem columnsAccesses_stores (s : State) (c : Color) (cols : List Column) :
    ((columnsAccesses s c cols).filter Access.isWrite).map Access.addr =
      cols.flatMap fun col => [s.fbBase.toNat + col.off + 0, s.fbBase.toNat + col.off + 2,
        s.fbBase.toNat + col.off + 4, s.fbBase.toNat + col.off + 6] := by
  induction cols with
  | nil => rfl
  | cons col cols ih =>
    rw [columnsAccesses_cons, List.filter_append, List.map_append, columnWrite_stores, ih]
    rfl

/-- Columns in rising order are stored to at rising addresses. -/
theorem columnsAccesses_rising (s : State) (c : Color) (cols : List Column)
    (h : cols.Pairwise fun a b => a.off + 8 ≤ b.off) :
    (((columnsAccesses s c cols).filter Access.isWrite).map Access.addr).Pairwise (· < ·) := by
  rw [columnsAccesses_stores, List.pairwise_flatMap]
  refine ⟨fun col _ => by simp, h.imp ?_⟩
  intro a b hab x hx y hy
  simp only [List.mem_cons, List.not_mem_nil, or_false] at hx hy
  omega

/-- Every masked write of the list comes right after the read of its own word. -/
def ReadsFirst (xs : List Access) : Prop :=
  ∀ (k a : Nat) (role : Role) (i : Fin 4) (m c : PlaneWord), xs[k]? = some (.merge a role i m c) →
    ∃ j, k = j + 1 ∧ xs[j]? = some (.read a)

theorem ReadsFirst.append {xs ys : List Access} (hx : ReadsFirst xs) (hy : ReadsFirst ys) : ReadsFirst (xs ++ ys) := by
  intro k a role i m c h
  by_cases hk : k < xs.length
  · rw [List.getElem?_append_left hk] at h
    obtain ⟨j, rfl, h⟩ := hx k a role i m c h
    exact ⟨j, rfl, by rwa [List.getElem?_append_left (by omega)]⟩
  · rw [List.getElem?_append_right (by omega)] at h
    obtain ⟨j, e, h⟩ := hy _ a role i m c h
    exact ⟨k - 1, by omega, by
      rwa [List.getElem?_append_right (by omega), show k - 1 - xs.length = j by omega]⟩

/-- A column write reads each plane word just before it writes what it composed (R164). -/
theorem columnWrite_readsFirst (s : State) (off : Nat) (m : PlaneWord) (c : Color) (role : Role) :
    ReadsFirst (columnWrite s off m c role) := by
  intro k a r i n d h
  by_cases hr : role = .full
  · subst hr
    rw [columnWrite_full] at h
    simpa using List.mem_of_getElem? h
  · rw [columnWrite_masked _ _ _ _ hr] at h ⊢
    have hk : k < 8 := (List.getElem?_eq_some_iff.1 h).1
    interval_cases k <;> simp at h <;> exact ⟨_, rfl, by simp [h]⟩

theorem columnsAccesses_readsFirst (s : State) (c : Color) (cols : List Column) :
    ReadsFirst (columnsAccesses s c cols) := by
  induction cols with
  | nil => intro k a role i m d h; simp [columnsAccesses] at h
  | cons col cols ih => exact (columnWrite_readsFirst _ _ _ _ _).append ih

end Sys2Proof.Laws
end

