-- ==== Sys2Proof/Laws/Exec.lean ====
section
/-! SUPPORT. The run of a command: every meaning is `runCommand` of its verdict, what `runCommand` can answer, and what a
verdict depends on. -/

namespace Sys2Proof.Laws

open Sys2Proof.Machine

/-- Every meaning is the run of what its rule says, under its own opcode. -/
theorem exec_eq_runCommand (i : Instr) (s : State) : exec i s = runCommand i.opcode (verdictOf i s) s := by
  cases i <;> rfl

theorem runCommand_raise (op : Opcode) (e : ErrCode) (s : State) :
    runCommand op (.raise e) s = .next (s.finish op e) := rfl

theorem runCommand_proceed {op : Opcode} {xs : List Access} {eff : Effect} {s : State}
    (h : ∀ x ∈ xs, portHas s.params x.addr = true) :
    runCommand op (.proceed xs eff) s = .next ((s.performAccesses xs).complete op eff) := by
  have : xs.all (fun x => portHas s.params x.addr) = true := List.all_eq_true.2 h
  simp [runCommand, this]

theorem performAccesses_nil (s : State) : s.performAccesses [] = s := rfl

theorem runCommand_register (op : Opcode) (eff : Effect) (s : State) :
    runCommand op (.proceed [] eff) s = .next (s.complete op eff) := by
  rw [runCommand_proceed (by simp), performAccesses_nil]

/-- Everything a command can answer: its error, its completion, or a port address outside the port. -/
theorem runCommand_cases (op : Opcode) (v : Verdict) (s : State) :
    (∃ e, v = .raise e ∧ runCommand op v s = .next (s.finish op e)) ∨
    (∃ xs eff, v = .proceed xs eff ∧ (∀ x ∈ xs, portHas s.params x.addr = true) ∧
      runCommand op v s = .next ((s.performAccesses xs).complete op eff)) ∨
    (∃ xs eff, v = .proceed xs eff ∧ (∃ x ∈ xs, portHas s.params x.addr = false) ∧
      runCommand op v s = .fault .portAddress) := by
  cases v with
  | raise e => exact .inl ⟨e, rfl, rfl⟩
  | proceed xs eff =>
    by_cases h : xs.all (fun x => portHas s.params x.addr) = true
    · exact .inr (.inl ⟨xs, eff, rfl, List.all_eq_true.1 h, by simp [runCommand, h]⟩)
    · refine .inr (.inr ⟨xs, eff, rfl, ?_, by simp [runCommand, h]⟩)
      simpa using h

/-- What a verdict depends on: the checks' flags, the framebuffer, the tables and the parameters. -/
structure SameChecks (s t : State) : Prop where
  params : s.params = t.params
  initDone : s.initDone = t.initDone
  fbValid : s.fbValid = t.fbValid
  fbBase : s.fbBase = t.fbBase
  colTable : s.colTable = t.colTable
  rowTable : s.rowTable = t.rowTable

theorem columnWrite_congr {s t : State} (h : s.fbBase = t.fbBase) (off : Nat) (m : PlaneWord) (c : Color)
    (role : Role) : columnWrite s off m c role = columnWrite t off m c role := by
  simp only [columnWrite, h]

theorem SameChecks.symm {s t : State} (h : SameChecks s t) : SameChecks t s :=
  ⟨h.1.symm, h.2.symm, h.3.symm, h.4.symm, h.5.symm, h.6.symm⟩

theorem SameChecks.translatePixel_eq {s t : State} (h : SameChecks s t) : translatePixel s = translatePixel t := by
  funext x y
  simp only [translatePixel, columnOffset, h.colTable, h.rowTable]

theorem SameChecks.scanlineWrites_eq {s t : State} (h : SameChecks s t) : scanlineWrites s = scanlineWrites t := by
  funext x1 x2 c y
  simp only [scanlineWrites, columnWrite, columnOffset, h.fbBase, h.colTable, h.rowTable]

theorem SameChecks.wordVerdict_eq {s t : State} (h : SameChecks s t) (w : Command) :
    wordVerdict w s = wordVerdict w t := by
  unfold wordVerdict
  cases decode w with
  | error e => rfl
  | ok i =>
    cases i <;>
      simp only [verdictOf, checkSetfb, checkXlate, checkColwr, checkDrawbox, columnWrite, h.translatePixel_eq,
        h.scanlineWrites_eq, h.params, h.initDone, h.fbValid, h.fbBase]

/-! ## The opcode of a word -/

theorem decode_opcode {w : Command} {i : Instr} (h : decode w = .ok i) : opField w = i.opcode := by
  unfold decode at h
  repeat' split at h
  all_goals cases h
  all_goals assumption

/-- The run of a word is the run of its verdict, under its own OP field. -/
theorem runWord_eq_runCommand (w : Command) (s : State) :
    runWord w s = runCommand (opField w) (wordVerdict w s) s := by
  unfold runWord wordVerdict
  cases h : decode w with
  | error e => rfl
  | ok i => rw [decode_opcode h]; exact exec_eq_runCommand i s

/-! ## How a command ends -/

/-- A raised error leaves the state that `failedWith` names (R218). -/
theorem finish_eq_failedWith (s : State) (op : Opcode) {e : ErrCode} (h : e ≠ .ok) :
    s.finish op e = s.failedWith op e := by simp [State.finish, State.failedWith, stickyError, h]

/-- A completion with OK keeps ANYERR (R31, R219). -/
theorem finish_eq_doneWith (s : State) (op : Opcode) : s.finish op .ok = s.doneWith op := by
  simp [State.finish, State.doneWith, stickyError]

theorem exec_of_raise {i : Instr} {s : State} {e : ErrCode} (h : verdictOf i s = .raise e) (he : e ≠ .ok) :
    exec i s = .next (s.failedWith i.opcode e) := by
  rw [exec_eq_runCommand, h, runCommand_raise, finish_eq_failedWith _ _ he]

theorem exec_of_register {i : Instr} {s : State} {eff : Effect} (h : verdictOf i s = .proceed [] eff) :
    exec i s = .next ((s.applyEffect eff).doneWith i.opcode) := by
  rw [exec_eq_runCommand, h, runCommand_register, complete_eq_finish, finish_eq_doneWith]

theorem exec_of_accesses {i : Instr} {s : State} {xs : List Access} {eff : Effect}
    (h : verdictOf i s = .proceed xs eff) (hx : ∀ x ∈ xs, portHas s.params x.addr = true) :
    exec i s = .next (((s.performAccesses xs).applyEffect eff).doneWith i.opcode) := by
  rw [exec_eq_runCommand, h, runCommand_proceed hx, complete_eq_finish, finish_eq_doneWith]

theorem wordVerdict_of_decode {w : Command} {i : Instr} (h : decode w = .ok i) (s : State) :
    wordVerdict w s = verdictOf i s := by simp only [wordVerdict, h]

/-- What the rule of an instruction can say: an error other than OK, or accesses, which only COLWR and DRAWBOX make,
and the register writes of the one command they belong to. -/
theorem verdictOf_cases (i : Instr) (s : State) :
    (∃ e, verdictOf i s = .raise e ∧ e ≠ .ok) ∨
    ∃ xs eff, verdictOf i s = .proceed xs eff ∧
      (eff = .tables → i.opcode = 0x1#4) ∧ (∀ b, eff = .surface b → i.opcode = 0x2#4) ∧
      (∀ r, eff = .result r → i.opcode = 0x3#4) ∧ (∀ a b c d, eff = .results a b c d → i.opcode = 0x4#4) ∧
      (xs ≠ [] → i.opcode = 0x5#4 ∨ i.opcode = 0x6#4) := by
  cases i with
  | init => exact .inr ⟨_, _, rfl, by simp [Instr.opcode]⟩
  | setfb base =>
    simp only [verdictOf, checkSetfb]
    split
    · exact .inr ⟨_, _, rfl, by simp [Instr.opcode]⟩
    · exact .inl ⟨_, rfl, by decide⟩
  | xlate x y =>
    simp only [verdictOf, checkXlate]
    repeat' split
    · exact .inl ⟨_, rfl, by decide⟩
    · exact .inr ⟨_, _, rfl, by simp [Instr.opcode]⟩
    · exact .inl ⟨_, rfl, by decide⟩
  | emask x1 x2 =>
    simp only [verdictOf, checkEmask]
    repeat' split
    · exact .inl ⟨_, rfl, by decide⟩
    · exact .inr ⟨_, _, rfl, by simp [Instr.opcode]⟩
    · exact .inl ⟨_, rfl, by decide⟩
  | colwr role c m off =>
    simp only [verdictOf, checkColwr]
    repeat' split
    · exact .inl ⟨_, rfl, by decide⟩
    · exact .inr ⟨_, _, rfl, by simp [Instr.opcode]⟩
    · exact .inl ⟨_, rfl, by decide⟩
  | drawbox x1 y1 x2 y2 c =>
    simp only [verdictOf, checkDrawbox]
    repeat' split
    all_goals first
      | exact .inl ⟨_, rfl, by decide⟩
      | exact .inr ⟨_, _, rfl, by simp [Instr.opcode]⟩

end Sys2Proof.Laws
end

