-- ==== Sys2Proof/Laws/Tables.lean ====
section
/-! SUPPORT. The built tables entry by entry, the translator in closed form, and the accesses of a box as column writes. -/

namespace Sys2Proof.Laws

open Sys2Proof.Machine

theorem builtColTable_byteOffset (x : Fin 320) : (builtColTable[x]).byteOffset.toNat = x.val / 16 * 8 := by
  have := x.isLt
  simp [builtColTable]
  omega

theorem builtColTable_bitColumn (x : Fin 320) : (builtColTable[x]).bitColumn.toNat = x.val % 16 := by
  simp [builtColTable]

theorem builtRowTable_entry (y : Fin 200) : (builtRowTable[y]).toNat = y.val * 160 := by
  have := y.isLt
  simp [builtRowTable]
  omega

/-- With the tables built, the offset of the column that holds pixel (x, y) is `y*160 + (x div 16)*8` (R124). -/
theorem columnOffset_built {s : State} (h : s.tablesBuilt) (x : Fin 320) (y : Fin 200) :
    columnOffset s x y = y.val * 160 + x.val / 16 * 8 := by
  simp only [columnOffset, h.1, h.2, builtColTable_byteOffset, builtRowTable_entry]

theorem rowTable_built {s : State} (h : s.tablesBuilt) (y : Fin 200) : (s.rowTable[y]).toNat = y.val * 160 := by
  simp only [h.2, builtRowTable_entry]

theorem pixelX_some {v : Coord} {x : Fin 320} : pixelX v = some x ↔ v.toNat = x.val := by
  unfold pixelX
  split
  · next h => simp [Fin.ext_iff]
  · next h => have := x.isLt; simp; omega

theorem pixelX_none {v : Coord} : pixelX v = none ↔ 320 ≤ v.toNat := by
  unfold pixelX; split <;> simp <;> omega

theorem pixelY_some {v : Coord} {y : Fin 200} : pixelY v = some y ↔ v.toNat = y.val := by
  unfold pixelY
  split
  · next h => simp [Fin.ext_iff]
  · next h => have := y.isLt; simp; omega

theorem pixelY_none {v : Coord} : pixelY v = none ↔ 200 ≤ v.toNat := by
  unfold pixelY; split <;> simp <;> omega

/-! ## The columns of a box -/

/-- The column writes of one scanline (R182 to R184). -/
def scanlineColumns (s : State) (x1 x2 : Fin 320) (y : Fin 200) : List Column :=
  let e := edgeMasks x1 x2
  if e.wc = 0 then [⟨columnOffset s x1 y, e.cm, .single⟩]
  else
    ⟨columnOffset s x1 y, e.sm, .edge⟩ ::
      ((List.range (e.wc - 1)).map (fun k => ⟨s.rowTable[y].toNat + (e.sc.val + (k + 1)) * 8, 0#16, .full⟩)
        ++ [⟨columnOffset s x2 y, e.em, .edge⟩])

theorem scanlineWrites_eq (s : State) (x1 x2 : Fin 320) (c : Color) (y : Fin 200) :
    scanlineWrites s x1 x2 c y = columnsAccesses s c (scanlineColumns s x1 x2 y) := by
  by_cases h : (edgeMasks x1 x2).wc = 0
  · simp [scanlineWrites, scanlineColumns, columnsAccesses, h]
  · simp [scanlineWrites, scanlineColumns, columnsAccesses, h, List.flatMap_map]

/-- The column writes of a box. -/
def boxColumns (s : State) (x1 x2 : Fin 320) (y1 y2 : Fin 200) : List Column :=
  (boxScanlines y1 y2).flatMap (scanlineColumns s x1 x2)

theorem boxWrites_eq (s : State) (x1 x2 : Fin 320) (c : Color) (y1 y2 : Fin 200) :
    (boxScanlines y1 y2).flatMap (scanlineWrites s x1 x2 c) = columnsAccesses s c (boxColumns s x1 x2 y1 y2) := by
  have : scanlineWrites s x1 x2 c = fun y => columnsAccesses s c (scanlineColumns s x1 x2 y) :=
    funext (scanlineWrites_eq s x1 x2 c)
  rw [this]
  simp [columnsAccesses, boxColumns, List.flatMap_assoc]

/-- The scanlines a box draws are y1..y2 when y1 < y2 (R180). -/
theorem mem_boxScanlines {y1 y2 y : Fin 200} (h : y1 ≤ y2) :
    y ∈ boxScanlines y1 y2 ↔ y1 < y2 ∧ y1 ≤ y ∧ y ≤ y2 := by
  have h1 := y1.isLt
  have h2 := y2.isLt
  have hy := y.isLt
  simp only [Fin.le_def, Fin.lt_def] at *
  unfold boxScanlines
  split
  · next e => subst e; simp
  · next e =>
    have e' : y2.val ≠ y1.val := fun q => e (Fin.ext q)
    simp only [List.mem_map, List.mem_range]
    constructor
    · rintro ⟨line, hl, rfl⟩
      have : (Fin.ofNat 200 (y1.val + line)).val = y1.val + line := by
        simp only [Fin.val_ofNat]; omega
      rw [this]; omega
    · rintro ⟨ha, hb, hc⟩
      refine ⟨y.val - y1.val, by omega, Fin.ext ?_⟩
      simp only [Fin.val_ofNat]; omega

theorem boxScanlines_length (y1 y2 : Fin 200) :
    (boxScanlines y1 y2).length = if y1 = y2 then 0 else y2.val - y1.val + 1 := by
  unfold boxScanlines
  by_cases e : y2 = y1
  · simp [e]
  · simp [e, Ne.symm e]

theorem boxScanlines_sorted (y1 y2 : Fin 200) (h : y1 ≤ y2) : (boxScanlines y1 y2).Pairwise (· < ·) := by
  have h2 := y2.isLt
  simp only [Fin.le_def] at h
  unfold boxScanlines
  split
  · exact .nil
  · rw [List.pairwise_map]
    refine (List.pairwise_lt_range (n := y2.val - y1.val + 1)).imp_of_mem ?_
    intro a b ha hb hab
    simp only [List.mem_range] at ha hb
    simp only [Fin.lt_def, Fin.val_ofNat]
    omega

theorem edgeMasks_wc (x1 x2 : Fin 320) : (edgeMasks x1 x2).wc = x2.val / 16 - x1.val / 16 := rfl

/-- Which columns a scanline of a box writes, with which mask and role. -/
theorem mem_scanlineColumns {s : State} (ht : s.tablesBuilt) {x1 x2 : Fin 320} (hx : x1 ≤ x2) {y : Fin 200}
    {col : Column} :
    col ∈ scanlineColumns s x1 x2 y ↔
      (x1.val / 16 = x2.val / 16 ∧ col = ⟨y.val * 160 + x1.val / 16 * 8, (edgeMasks x1 x2).cm, .single⟩) ∨
      (x1.val / 16 < x2.val / 16 ∧
        (col = ⟨y.val * 160 + x1.val / 16 * 8, (edgeMasks x1 x2).sm, .edge⟩ ∨
          (∃ k, x1.val / 16 < k ∧ k < x2.val / 16 ∧ col = ⟨y.val * 160 + k * 8, 0#16, .full⟩) ∨
          col = ⟨y.val * 160 + x2.val / 16 * 8, (edgeMasks x1 x2).em, .edge⟩)) := by
  have hle : x1.val / 16 ≤ x2.val / 16 := Nat.div_le_div_right hx
  unfold scanlineColumns
  simp only [columnOffset_built ht, rowTable_built ht, edgeMasks_wc]
  split
  · next h =>
    have e : x1.val / 16 = x2.val / 16 := by omega
    simp [e]
  · next h =>
    have e : ¬ x1.val / 16 = x2.val / 16 := by omega
    have n : x1.val / 16 < x2.val / 16 := by omega
    simp only [e, n, false_and, true_and, false_or, List.mem_cons, List.mem_append, List.mem_map, List.mem_range,
      List.not_mem_nil, or_false]
    refine or_congr Iff.rfl (or_congr ⟨?_, ?_⟩ Iff.rfl)
    · rintro ⟨k, hk, rfl⟩
      exact ⟨x1.val / 16 + (k + 1), by omega, by omega, rfl⟩
    · rintro ⟨k, h1, h2, rfl⟩
      refine ⟨k - x1.val / 16 - 1, by omega, ?_⟩
      simp only [edgeMasks, columnIndex, Column.mk.injEq, and_true]
      omega

/-- The offset of a column a box writes: its scanline and its column index are in the box. -/
theorem scanlineColumns_off {s : State} (ht : s.tablesBuilt) {x1 x2 : Fin 320} (hx : x1 ≤ x2) {y : Fin 200}
    {col : Column} (h : col ∈ scanlineColumns s x1 x2 y) :
    ∃ k, x1.val / 16 ≤ k ∧ k ≤ x2.val / 16 ∧ col.off = y.val * 160 + k * 8 := by
  have hle : x1.val / 16 ≤ x2.val / 16 := Nat.div_le_div_right hx
  obtain ⟨-, rfl⟩ | ⟨hlt, rfl | ⟨k, h1, h2, rfl⟩ | rfl⟩ := (mem_scanlineColumns ht hx).1 h
  · exact ⟨_, le_refl _, hle, rfl⟩
  · exact ⟨_, le_refl _, hle, rfl⟩
  · exact ⟨k, h1.le, h2.le, rfl⟩
  · exact ⟨_, hle, le_refl _, rfl⟩

/-- Within a scanline the columns are written left to right and none twice (R185, R187). -/
theorem scanlineColumns_sorted {s : State} (ht : s.tablesBuilt) {x1 x2 : Fin 320} (hx : x1 ≤ x2) (y : Fin 200) :
    (scanlineColumns s x1 x2 y).Pairwise fun a b => a.off + 8 ≤ b.off := by
  have hle : x1.val / 16 ≤ x2.val / 16 := Nat.div_le_div_right hx
  have hsc : (edgeMasks x1 x2).sc.val = x1.val / 16 := rfl
  unfold scanlineColumns
  simp only [columnOffset_built ht, rowTable_built ht, edgeMasks_wc, hsc]
  split
  · simp
  · next h =>
    rw [List.pairwise_cons, List.pairwise_append]
    refine ⟨?_, ?_, by simp, ?_⟩
    · intro b hb
      simp only [List.mem_append, List.mem_map, List.mem_range, List.mem_singleton] at hb
      obtain ⟨k, hk, rfl⟩ | rfl := hb <;> simp only <;> omega
    · rw [List.pairwise_map]
      refine (List.pairwise_lt_range (n := x2.val / 16 - x1.val / 16 - 1)).imp ?_
      intro a b hab
      simp only
      omega
    · intro a ha b hb
      simp only [List.mem_map, List.mem_range, List.mem_singleton] at ha hb
      obtain ⟨k, hk, rfl⟩ := ha
      subst hb
      simp only
      omega

/-- No two column writes of a box overlap (R187). -/
theorem boxColumns_sorted {s : State} (ht : s.tablesBuilt) {x1 x2 : Fin 320} (hx : x1 ≤ x2) {y1 y2 : Fin 200}
    (hy : y1 ≤ y2) : (boxColumns s x1 x2 y1 y2).Pairwise fun a b => a.off + 8 ≤ b.off := by
  rw [boxColumns, List.pairwise_flatMap]
  refine ⟨fun y _ => scanlineColumns_sorted ht hx y, (boxScanlines_sorted y1 y2 hy).imp ?_⟩
  intro a b hab c hc d hd
  obtain ⟨k, h1, h2, h3⟩ := scanlineColumns_off ht hx hc
  obtain ⟨l, h4, h5, h6⟩ := scanlineColumns_off ht hx hd
  have := x2.isLt
  rw [Fin.lt_def] at hab
  omega

theorem boxColumns_apart {s : State} (ht : s.tablesBuilt) {x1 x2 : Fin 320} (hx : x1 ≤ x2) {y1 y2 : Fin 200}
    (hy : y1 ≤ y2) : (boxColumns s x1 x2 y1 y2).Pairwise Column.apart :=
  (boxColumns_sorted ht hx hy).imp Or.inl

/-- Every column of a box lies in the framebuffer (R81). -/
theorem boxColumns_off {s : State} (ht : s.tablesBuilt) {x1 x2 : Fin 320} (hx : x1 ≤ x2) {y1 y2 : Fin 200}
    {col : Column} (h : col ∈ boxColumns s x1 x2 y1 y2) : col.off % 8 = 0 ∧ col.off ≤ 31992 := by
  obtain ⟨y, -, hc⟩ := List.mem_flatMap.1 h
  obtain ⟨k, h1, h2, h3⟩ := scanlineColumns_off ht hx hc
  have := x2.isLt
  have := y.isLt
  omega

/-! ## The accesses of every command -/

/-- A box that passes its checks draws its columns (R186). -/
theorem verdictOf_drawbox {s : State} {x1 y1 x2 y2 : Coord} (c : Color) (hi : s.initDone = true)
    (hf : s.fbValid = true) {p1 p2 : Fin 320} {q1 q2 : Fin 200} (e1 : x1.toNat = p1.val) (e2 : x2.toNat = p2.val)
    (e3 : y1.toNat = q1.val) (e4 : y2.toNat = q2.val) (hx : p1 ≤ p2) (hy : q1 ≤ q2) :
    verdictOf (.drawbox x1 y1 x2 y2 c) s = .proceed (columnsAccesses s c (boxColumns s p1 p2 q1 q2)) .none := by
  simp [verdictOf, checkDrawbox, hi, hf, pixelX_some.2 e1, pixelX_some.2 e2, pixelY_some.2 e3, pixelY_some.2 e4,
    not_lt.2 hx, not_lt.2 hy, boxWrites_eq]

/-- A DRAWBOX makes no access, or it passes its checks and draws its columns. -/
theorem drawbox_accesses (s : State) (x1 y1 x2 y2 : Coord) (c : Color) :
    (verdictOf (.drawbox x1 y1 x2 y2 c) s).accesses = [] ∨
    ∃ (p1 p2 : Fin 320) (q1 q2 : Fin 200), p1 ≤ p2 ∧ q1 ≤ q2 ∧ x1.toNat = p1.val ∧ x2.toNat = p2.val ∧
      y1.toNat = q1.val ∧ y2.toNat = q2.val ∧ s.initDone = true ∧ s.fbValid = true ∧
      (verdictOf (.drawbox x1 y1 x2 y2 c) s).accesses = columnsAccesses s c (boxColumns s p1 p2 q1 q2) := by
  cases hv : verdictOf (.drawbox x1 y1 x2 y2 c) s with
  | raise e => exact .inl rfl
  | proceed xs eff =>
    simp only [verdictOf, checkDrawbox] at hv
    split at hv
    · cases hv
    · next hi =>
      split at hv
      · cases hv
      · next hf =>
        split at hv
        · next p1 p2 q1 q2 e1 e2 e3 e4 =>
          split at hv
          · cases hv
          · next hg =>
            cases hv
            rw [not_or, not_lt, not_lt] at hg
            refine .inr ⟨p1, p2, q1, q2, hg.1, hg.2, pixelX_some.1 e1, pixelX_some.1 e2, pixelY_some.1 e3,
              pixelY_some.1 e4, by simpa using hi, by simpa using hf, ?_⟩
            simp only [Verdict.accesses, boxWrites_eq]
        · cases hv

/-- The accesses of every command are column writes of columns of the framebuffer, in rising order. -/
theorem commandAccesses_columns (w : Command) (s : State) (ht : s.initDone = true → s.tablesBuilt) :
    ∃ (c : Color) (cols : List Column), commandAccesses w s = columnsAccesses s c cols ∧
      (cols.Pairwise fun a b => a.off + 8 ≤ b.off) ∧ ∀ col ∈ cols, col.off % 8 = 0 ∧ col.off ≤ 31992 := by
  have nil : ∀ {xs : List Access}, xs = [] → ∃ (c : Color) (cols : List Column), xs = columnsAccesses s c cols ∧
      (cols.Pairwise fun a b => a.off + 8 ≤ b.off) ∧ ∀ col ∈ cols, col.off % 8 = 0 ∧ col.off ≤ 31992 :=
    fun h => ⟨0#4, [], by simp [h, columnsAccesses], .nil, by simp⟩
  cases hd : decode w with
  | error e => exact nil (by simp [commandAccesses, wordVerdict, hd, Verdict.accesses])
  | ok i =>
    unfold commandAccesses
    rw [wordVerdict_of_decode hd]
    obtain ⟨e, hv, -⟩ | ⟨xs, eff, hv, -, -, -, -, hm⟩ := verdictOf_cases i s
    · exact nil (by rw [hv]; rfl)
    · cases i with
      | colwr role c m off =>
        simp only [verdictOf, checkColwr]
        split
        · exact nil rfl
        · split
          · next h =>
            simp only [columnStart, decide_eq_true_eq] at h
            exact ⟨c, [⟨off.toNat, m, role⟩], by simp [Verdict.accesses, columnsAccesses], by simp, by simp [h]⟩
          · exact nil rfl
      | drawbox x1 y1 x2 y2 c =>
        obtain h | ⟨p1, p2, q1, q2, hx, hy, -, -, -, -, hi, -, h⟩ := drawbox_accesses s x1 y1 x2 y2 c
        · exact nil h
        · exact ⟨c, _, h, boxColumns_sorted (ht hi) hx hy, fun col hc => boxColumns_off (ht hi) hx hc⟩
      | _ =>
        refine nil ?_
        rw [hv]
        by_contra hne
        exact absurd (hm hne) (by simp [Instr.opcode])

end Sys2Proof.Laws
end

