-- ==== Sys2Proof/Laws/Step.lean ====
section
/-! SUPPORT. What a step can do: the inversion of `step`, `runWord` and `stepRunning`, what an agent's write does, and
that `withFetchWord` makes its word run. -/

namespace Sys2Proof.Laws

open Sys2Proof.Machine

/-- Two states that agree in everything but memory, the engine, the host's lists and the count of free values. -/
structure SameRegs (s t : State) : Prop extends SameChecks s t where
  anyErr : s.anyErr = t.anyErr
  err : s.err = t.err
  lastOp : s.lastOp = t.lastOp
  res0 : s.res0 = t.res0
  res1 : s.res1 = t.res1
  res2 : s.res2 = t.res2
  res3 : s.res3 = t.res3

/-- An update of what is not a register keeps the registers. -/
theorem SameRegs.update (s : State) (engine : Engine) (mem : Memory) (inputs : List Input) (replies : List Reply)
    (fresh : Nat) :
    SameRegs s { s with engine := engine, mem := mem, inputs := inputs, replies := replies, fresh := fresh } :=
  ⟨⟨rfl, rfl, rfl, rfl, rfl, rfl⟩, rfl, rfl, rfl, rfl, rfl, rfl, rfl⟩

theorem SameRegs.refl (s : State) : SameRegs s s := SameRegs.update s _ _ _ _ _

theorem SameChecks.trans {s t u : State} (h : SameChecks s t) (g : SameChecks t u) : SameChecks s u :=
  ⟨h.1.trans g.1, h.2.trans g.2, h.3.trans g.3, h.4.trans g.4, h.5.trans g.5, h.6.trans g.6⟩

theorem SameRegs.trans {s t u : State} (h : SameRegs s t) (g : SameRegs t u) : SameRegs s u :=
  ⟨h.1.trans g.1, h.2.trans g.2, h.3.trans g.3, h.4.trans g.4, h.5.trans g.5, h.6.trans g.6, h.7.trans g.7,
    h.8.trans g.8⟩

theorem dropInput_sameRegs (s : State) : SameRegs s s.dropInput := SameRegs.update s _ _ _ _ _

/-- The end of a command: the STATUS fields of its error, or its register writes and completion (R218, R219). -/
def endOf (op : Opcode) (v : Verdict) (s : State) : State :=
  match v with
  | .raise e => s.finish op e
  | .proceed _ eff => (s.applyEffect eff).finish op .ok

theorem completeRunning_eq (r : Running) (s : State) :
    completeRunning r s = endOf (opField r.word) (wordVerdict r.word s) s := by
  unfold completeRunning endOf
  cases wordVerdict r.word s <;> rfl

/-- Everything one step of a running command can do: its next access, or the end of the command. -/
theorem stepRunning_cases {s t : State} {r : Running} (h : stepRunning r s = .next t) :
    (∃ x p, nextAccess r s = some x ∧ portHas s.params x.addr = true ∧
      p = Port.perform s.params.edgeMode r.raced { mem := s.mem, latch := r.latch, fresh := s.fresh } x ∧
      t = { s with
        mem := p.mem
        fresh := p.fresh
        engine := .running { r with done := r.done + 1, latch := p.latch } }) ∨
    (nextAccess r s = none ∧ t = endOf (opField r.word) (wordVerdict r.word s) s) := by
  unfold stepRunning at h
  split at h
  · next x hx =>
    split at h
    · next hp => cases h; exact .inl ⟨x, _, hx, hp, rfl, rfl⟩
    · cases h
  · next hx => cases h; exact .inr ⟨hx, completeRunning_eq r s⟩

/-- Everything the run of a whole word can do: from a state with the same registers, the end of the command. -/
theorem runWord_cases {w : Command} {s t : State} (h : runWord w s = .next t) :
    ∃ u, SameRegs s u ∧ u.mem = (s.performAccesses (commandAccesses w s)).mem ∧ u.engine = s.engine ∧
      u.inputs = s.inputs ∧ u.replies = s.replies ∧ u.fresh = s.fresh ∧
      t = endOf (opField w) (wordVerdict w s) u := by
  rw [runWord_eq_runCommand] at h
  obtain ⟨e, h1, h2⟩ | ⟨xs, eff, h1, -, h2⟩ | ⟨xs, eff, h1, -, h2⟩ :=
    runCommand_cases (opField w) (wordVerdict w s) s <;> rw [h2] at h
  · cases h
    refine ⟨s, SameRegs.refl s, ?_, rfl, rfl, rfl, rfl, by rw [h1]; rfl⟩
    rw [commandAccesses, h1]; rfl
  · cases h
    refine ⟨s.performAccesses xs, SameRegs.update s _ _ _ _ _, ?_, rfl, rfl, rfl, ?_, by rw [h1]; rfl⟩
    · rw [commandAccesses, h1]; rfl
    · rw [performAccesses_fresh, performAll_fresh]; rfl
  · cases h

/-- Everything an agent's write while a command runs can do. -/
theorem disturb_cases (s : State) (r : Running) (xs : List Access) (addr : Nat) (v : Byte) :
    (touchedWord xs addr = none ∧ s.disturb r xs addr v = { s with mem := Memory.writeByte s.mem addr v }) ∨
    ∃ a, touchedWord xs addr = some a ∧ s.disturb r xs addr v =
      { s with
        mem := Memory.writeWord s.mem a (Config.racedWord s.fresh)
        fresh := s.fresh + 1
        engine := .running { r with raced := a :: r.raced } } := by
  unfold State.disturb
  cases touchedWord xs addr with
  | none => exact .inl ⟨rfl, rfl⟩
  | some a => exact .inr ⟨a, rfl, rfl⟩

/-- The word an agent's write reaches is one the command touches, and it holds the byte. -/
theorem touchedWord_some {xs : List Access} {addr a : Nat} (h : touchedWord xs addr = some a) :
    (∃ x ∈ xs, x.addr = a) ∧ a ≤ addr ∧ addr < a + 2 := by
  have h1 := List.mem_of_find?_eq_some h
  have h2 := List.find?_some h
  simp only [List.mem_map, decide_eq_true_eq] at h1 h2
  exact ⟨h1, h2⟩

/-- Everything a step other than reset can do to the registers: keep them, or end a command. -/
theorem step_registers {s t : State} (h : step s = .next t) (hr : s.inputs.head? ≠ some .reset) :
    SameRegs s t ∨ ∃ w u, SameRegs s u ∧ t = endOf (opField w) (wordVerdict w u) u := by
  have run : ∀ {u : State} {r : Running}, SameRegs s u → stepRunning r u = .next t →
      SameRegs s t ∨ ∃ w u, SameRegs s u ∧ t = endOf (opField w) (wordVerdict w u) u := by
    intro u r hs hn
    obtain ⟨x, p, -, -, -, rfl⟩ | ⟨-, rfl⟩ := stepRunning_cases hn
    · exact .inl (hs.trans (SameRegs.update u _ _ _ _ _))
    · exact .inr ⟨_, u, hs, rfl⟩
  unfold step at h
  split at h
  · unfold stepEngine at h
    split at h
    · cases h; exact .inl (SameRegs.update s _ _ _ _ _)
    · exact run (SameRegs.update s _ _ _ _ _) h
  · next input rest hi =>
    cases input with
    | command w =>
      simp only [stepInput, whenIdle] at h
      split at h
      · obtain ⟨u, hu, -, -, -, -, -, rfl⟩ := runWord_cases h
        exact .inr ⟨w, u, (dropInput_sameRegs s).trans hu, by rw [hu.toSameChecks.wordVerdict_eq]⟩
      · exact run (SameRegs.update s _ _ _ _ _) h
    | submit w =>
      simp only [stepInput, whenIdle] at h
      split at h
      · cases h; exact .inl (SameRegs.update s _ _ _ _ _)
      · exact run (SameRegs.update s _ _ _ _ _) h
    | engine =>
      simp only [stepInput, stepEngine] at h
      split at h
      · cases h; exact .inl (SameRegs.update s _ _ _ _ _)
      · exact run (dropInput_sameRegs s) h
    | readReg off => cases h; exact .inl (SameRegs.update s _ _ _ _ _)
    | readByte addr =>
      simp only [stepInput, State.hostReadByte] at h
      split at h
      · cases h; exact .inl (SameRegs.update s _ _ _ _ _)
      · cases h
    | writeByte addr v =>
      simp only [stepInput, hostWriteByte] at h
      split at h
      · split at h
        · cases h; exact .inl (SameRegs.update s _ _ _ _ _)
        · next r _ =>
          cases h
          obtain ⟨-, e⟩ | ⟨a, -, e⟩ := disturb_cases s.dropInput r (wordVerdict r.word s.dropInput).accesses addr v <;>
            rw [e] <;> exact .inl (SameRegs.update s _ _ _ _ _)
      · cases h
    | reset => simp [hi] at hr

/-- The step after `withFetchWord` runs exactly its word. -/
theorem step_withFetchWord (s : State) (nbits w : Nat) :
    step (s.withFetchWord nbits w) = runWord (BitVec.ofNat 64 (w % 2 ^ nbits)) { s with engine := .idle } := rfl

end Sys2Proof.Laws
end

