-- ==== Sys2Proof/Laws/Engine.lean ====
section
/-! SUPPORT. The engine access by access: the state of a command after its first k accesses, and the step from each of
them. -/

namespace Sys2Proof.Laws

open Sys2Proof.Machine

theorem runEngine_succ {n : Nat} {s t : State} (h : stepEngine s = .next t) : runEngine (n + 1) s = runEngine n t := by
  simp only [runEngine, h]

/-- One step more at the end of a run of the engine. -/
theorem runEngine_succ_right {n : Nat} {s t : State} (h : runEngine n s = .next t) :
    runEngine (n + 1) s = stepEngine t := by
  induction n generalizing s with
  | zero => cases h; simp only [runEngine]; cases stepEngine t <;> rfl
  | succ n ih =>
    simp only [runEngine] at h
    cases hu : stepEngine s with
    | next u => rw [runEngine_succ hu]; rw [hu] at h; exact ih h
    | fault f => rw [hu] at h; cases h
    | refused f => rw [hu] at h; cases h

/-- A run that reaches a state where the engine stops, stops, however many steps it is given. -/
theorem runEngine_fault {n m : Nat} {s t : State} {f : Fault} (h : runEngine n s = .next t)
    (hf : stepEngine t = .fault f) (hm : n < m) : runEngine m s = .fault f := by
  obtain ⟨m, rfl⟩ : ∃ k, m = k + 1 := ⟨m - 1, by omega⟩
  induction n generalizing s m with
  | zero => cases h; simp only [runEngine, hf]
  | succ n ih =>
    simp only [runEngine] at h
    obtain ⟨m, rfl⟩ : ∃ k, m = k + 1 := ⟨m - 1, by omega⟩
    cases hu : stepEngine s with
    | next u => rw [runEngine_succ hu]; rw [hu] at h; exact ih h m (by omega)
    | fault f => rw [hu] at h; cases h
    | refused f => rw [hu] at h; cases h

/-- The state of a command that has performed its first `k` accesses, undisturbed (R43). -/
def afterAccesses (s : State) (w : Command) (k : Nat) : State :=
  let p := s.port.performAll s.params.edgeMode [] ((commandAccesses w s).take k)
  { s with
    mem := p.mem
    engine := .running { word := w, done := k, latch := p.latch, raced := [] } }

theorem afterAccesses_sameChecks (s : State) (w : Command) (k : Nat) : SameChecks (afterAccesses s w k) s :=
  ⟨rfl, rfl, rfl, rfl, rfl, rfl⟩

theorem stepEngine_afterAccesses (s : State) (w : Command) (k : Nat) :
    stepEngine (afterAccesses s w k) =
      stepRunning { word := w, done := k, latch := (s.port.performAll s.params.edgeMode []
        ((commandAccesses w s).take k)).latch, raced := [] } (afterAccesses s w k) := rfl

theorem nextAccess_afterAccesses (s : State) (w : Command) (k : Nat) (latch : PlaneWord) (raced : List Nat) :
    nextAccess { word := w, done := k, latch := latch, raced := raced } (afterAccesses s w k) =
      (commandAccesses w s)[k]? := by
  unfold nextAccess commandAccesses
  rw [(afterAccesses_sameChecks s w k).wordVerdict_eq]

/-- The engine's step from the state after `k` accesses performs access number `k`. -/
theorem stepEngine_access {s : State} {w : Command} {k : Nat} (hk : k < (commandAccesses w s).length)
    (hp : portHas s.params ((commandAccesses w s)[k]).addr = true) :
    stepEngine (afterAccesses s w k) = .next (afterAccesses s w (k + 1)) := by
  have hf : (s.port.performAll s.params.edgeMode [] ((commandAccesses w s).take k)).fresh = s.fresh :=
    performAll_fresh _ _
  have port : Port.mk (s.port.performAll s.params.edgeMode [] ((commandAccesses w s).take k)).mem
      (s.port.performAll s.params.edgeMode [] ((commandAccesses w s).take k)).latch s.fresh =
        s.port.performAll s.params.edgeMode [] ((commandAccesses w s).take k) := by rw [← hf]
  rw [stepEngine_afterAccesses, stepRunning, nextAccess_afterAccesses, List.getElem?_eq_getElem hk]
  simp only [afterAccesses, hp, if_true]
  rw [List.take_succ_eq_append_getElem hk, performAll_append, port]
  simp only [performAll_cons, performAll_nil, perform_fresh, hf]

/-- The engine stops at an access the memory port does not have. -/
theorem stepEngine_badAccess {s : State} {w : Command} {k : Nat} (hk : k < (commandAccesses w s).length)
    (hp : ¬ portHas s.params ((commandAccesses w s)[k]).addr = true) :
    stepEngine (afterAccesses s w k) = .fault .portAddress := by
  rw [stepEngine_afterAccesses, stepRunning, nextAccess_afterAccesses, List.getElem?_eq_getElem hk]
  simp only [afterAccesses, hp]
  rfl

/-- The engine's step after the last access ends the command (R219). -/
theorem stepEngine_end (s : State) (w : Command) :
    stepEngine (afterAccesses s w (commandAccesses w s).length) =
      .next (endOf (opField w) (wordVerdict w s) (s.performAccesses (commandAccesses w s))) := by
  rw [stepEngine_afterAccesses, stepRunning, nextAccess_afterAccesses, List.getElem?_eq_none (le_refl _)]
  simp only [completeRunning_eq, (afterAccesses_sameChecks s w _).wordVerdict_eq, List.take_length]
  have hf : (s.port.performAll s.params.edgeMode [] (commandAccesses w s)).fresh = s.fresh := performAll_fresh _ _
  cases hv : wordVerdict w s with
  | raise e => simp [endOf, afterAccesses, State.finish, State.performAccesses, hf]
  | proceed xs eff =>
    cases eff <;> simp [endOf, afterAccesses, State.finish, State.applyEffect, State.performAccesses, hf]

/-- From acceptance, `k` steps of the engine perform the first `k` accesses, as long as the port has them. -/
theorem runEngine_accept {w : Command} {s : State} (k : Nat) (hk : k ≤ (commandAccesses w s).length)
    (hp : ∀ j (h : j < (commandAccesses w s).length), j < k → portHas s.params ((commandAccesses w s)[j]).addr = true) :
    runEngine k (s.accept w) = .next (afterAccesses s w k) := by
  induction k with
  | zero => rfl
  | succ k ih =>
    rw [runEngine_succ_right (ih (by omega) fun j h hj => hp j h (by omega)),
      stepEngine_access (by omega) (hp k (by omega) (by omega))]

end Sys2Proof.Laws
end

