-- ==== Sys2Proof/Laws/PerInstr.lean ====
section
/-! SUPPORT. Statements made of every instruction as syntax, one lemma per constructor. -/

namespace Sys2Proof.Laws.EncodedOpcode

/-- The OP field of the instruction's word is its opcode (R91, R98). -/
def Statement (i : Instr) : Prop := opField (encode i) = i.opcode

/-- A word made of an opcode and 60 further bits has that opcode in its OP field. -/
theorem opField_append (op : Opcode) (rest : BitVec 60) : opField (op ++ rest) = op := by
  have := op.isLt
  have := rest.isLt
  rw [opField, extract_eq_iff, toNat_append_add]
  omega

theorem init : Statement .init := opField_append 0x1#4 0#60

theorem setfb (base : BitVec 32) : Statement (.setfb base) := by
  have := base.isLt
  simp only [Statement, Instr.opcode, opField, encode, extract_eq_iff, toNat_append_add, BitVec.toNat_ofNat]
  omega

theorem xlate (x1 y1 : Coord) : Statement (.xlate x1 y1) := by
  have := x1.isLt
  have := y1.isLt
  simp only [Statement, Instr.opcode, opField, encode, extract_eq_iff, toNat_append_add, BitVec.toNat_ofNat]
  omega

theorem emask (x1 x2 : Coord) : Statement (.emask x1 x2) := by
  have := x1.isLt
  have := x2.isLt
  simp only [Statement, Instr.opcode, opField, encode, extract_eq_iff, toNat_append_add, BitVec.toNat_ofNat]
  omega

theorem colwr (role : Role) (color : Color) (mask : PlaneWord) (offset : BitVec 16) :
    Statement (.colwr role color mask offset) := by
  have := role.bits.isLt
  have := color.isLt
  have := mask.isLt
  have := offset.isLt
  simp only [Statement, Instr.opcode, opField, encode, extract_eq_iff, toNat_append_add, BitVec.toNat_ofNat]
  omega

theorem drawbox (x1 y1 x2 y2 : Coord) (color : Color) : Statement (.drawbox x1 y1 x2 y2 color) := by
  have := x1.isLt
  have := y1.isLt
  have := x2.isLt
  have := y2.isLt
  have := color.isLt
  simp only [Statement, Instr.opcode, opField, encode, extract_eq_iff, toNat_append_add, BitVec.toNat_ofNat]
  omega

end Sys2Proof.Laws.EncodedOpcode
end

