-- ==== Sys2Proof/Tests/Slice0.lean ====
section
/-! SUPPORT. The model's own tests. Expected results come from spec/95_test_vectors.md, whose vector a docstring names, or
are computed by hand from the rule it names. After them, one witness theorem per statement that has hypotheses. -/

namespace Sys2Proof.Tests

open Sys2Proof.Machine

/-! ## Small states -/

/-- Reset, then INIT, then SETFB 0 (95_test_vectors.md, preamble). -/
def ready : State :=
  { State.reset with
    initDone := true
    fbValid := true
    lastOp := 0x2#4
    colTable := builtColTable
    rowTable := builtRowTable }

/-- The same machine with `EDGE_MODE = LITERAL`. -/
def readyLiteral : State := { ready with params := { edgeMode := .literal, addrW := ⟨16, by decide⟩ } }

/-- `s` with the column at offset 0 holding the four plane words. -/
def withColumn (s : State) (p0 p1 p2 p3 : PlaneWord) : State :=
  { s with mem := ((((s.mem.writeWord 0 p0).writeWord 2 p1).writeWord 4 p2).writeWord 6 p3) }

/-- The state one step after `w` is submitted, or `none` where the machine stops. -/
def after (w : Command) (s : State) : Option State :=
  match step { s with inputs := [.command w] } with
  | .next t => some t
  | .fault _ => none
  | .refused _ => none

/-- `ready` `k` accesses into DRAWBOX 20, 5, 35, 6, 7. -/
def drawing (k : Nat) : State :=
  { ready with engine := .running { word := 0x6007006023005014#64, done := k, latch := 0#16, raced := [] } }

/-- The four plane words of the column at byte `off`. -/
def column (off : Nat) (s : State) : List PlaneWord := [s.wordAt off, s.wordAt (off + 2), s.wordAt (off + 4), s.wordAt (off + 6)]

/-! ## Decoding: the words of 95_test_vectors.md section 3, laid out by R92 to R95 -/

theorem test_decode_init : decode 0x1000000000000000#64 = .ok .init := by decide

theorem test_decode_init_bit0 : decode 0x1000000000000001#64 = .error .mustBeZero := by decide

theorem test_decode_setfb : decode 0x2000000000001000#64 = .ok (.setfb 0x1000#32) := by decide

theorem test_decode_setfb_bit32 : decode 0x2000000100000000#64 = .error .mustBeZero := by decide

theorem test_decode_xlate : decode 0x3000000000005014#64 = .ok (.xlate 20#12 5#12) := by decide

theorem test_decode_xlate_x2 : decode 0x3000000001005014#64 = .error .mustBeZero := by decide

theorem test_decode_emask : decode 0x4000000023000014#64 = .ok (.emask 20#12 35#12) := by decide

theorem test_decode_emask_y1 : decode 0x4000000023005014#64 = .error .mustBeZero := by decide

theorem test_decode_colwr_edge : decode 0x501700000FFF0328#64 = .ok (.colwr .edge 7#4 0x0FFF#16 808#16) := by decide

theorem test_decode_colwr_full : decode 0x502F0000000001E8#64 = .ok (.colwr .full 15#4 0#16 488#16) := by decide

theorem test_decode_colwr_single : decode 0x500500000FF00000#64 = .ok (.colwr .single 5#4 0x0FF0#16 0#16) := by decide

theorem test_decode_colwr_role3 : decode 0x5030000000000000#64 = .error .reservedRole := by decide

theorem test_decode_drawbox : decode 0x6007006023005014#64 = .ok (.drawbox 20#12 5#12 35#12 6#12 7#4) := by decide

theorem test_decode_drawbox_role : decode 0x6017006023005014#64 = .error .mustBeZero := by decide

theorem test_decode_reserved :
    decode 0x0000000000000000#64 = .error .reservedOpcode ∧ decode 0x7000000000000000#64 = .error .reservedOpcode ∧
      decode 0xF000000000000000#64 = .error .reservedOpcode := by decide

/-- The same layouts from the other side. -/
theorem test_encode_words :
    [encode .init, encode (.setfb 0x1000#32), encode (.xlate 20#12 5#12), encode (.emask 20#12 35#12),
      encode (.colwr .edge 7#4 0x0FFF#16 808#16), encode (.drawbox 20#12 5#12 35#12 6#12 7#4)] =
    [0x1000000000000000#64, 0x2000000000001000#64, 0x3000000000005014#64, 0x4000000023000014#64,
      0x501700000FFF0328#64, 0x6007006023005014#64] := by decide

theorem test_decodeTableWord :
    decodeTableWord 64 0x3000000000005014 = some (.xlate 20#12 5#12) ∧ decodeTableWord 64 0x5030000000000000 = none := by
  decide

/-- R103: the assembly lines of R105 and of vectors D9 and E20. -/
theorem test_assemble :
    (AsmLine.drawbox 20 5 35 5 7).assemble = some 0x6007005023005014#64 ∧
      (AsmLine.colwrFull 31992 7).assemble = some 0x5027000000007CF8#64 ∧
      (AsmLine.dword 0xF000000000000000).assemble = some 0xF000000000000000#64 := by decide

/-! ## Well-formedness: one ill-formed line for each operand field (R103) -/

theorem test_illFormed_setfb_base : (AsmLine.setfb (2 ^ 32)).wellFormed = false := by decide

theorem test_illFormed_xlate :
    (AsmLine.xlate 4096 0).wellFormed = false ∧ (AsmLine.xlate 0 4096).wellFormed = false := by decide

theorem test_illFormed_emask :
    (AsmLine.emask 4096 0).wellFormed = false ∧ (AsmLine.emask 0 4096).wellFormed = false := by decide

theorem test_illFormed_colwrSingle :
    (AsmLine.colwrSingle 65536 0 0).wellFormed = false ∧ (AsmLine.colwrSingle 0 65536 0).wellFormed = false ∧
      (AsmLine.colwrSingle 0 0 16).wellFormed = false := by decide

theorem test_illFormed_colwrEdge :
    (AsmLine.colwrEdge 65536 0 0).wellFormed = false ∧ (AsmLine.colwrEdge 0 65536 0).wellFormed = false ∧
      (AsmLine.colwrEdge 0 0 16).wellFormed = false := by decide

theorem test_illFormed_colwrFull :
    (AsmLine.colwrFull 65536 0).wellFormed = false ∧ (AsmLine.colwrFull 0 16).wellFormed = false := by decide

theorem test_illFormed_drawbox :
    (AsmLine.drawbox 4096 0 0 0 0).wellFormed = false ∧ (AsmLine.drawbox 0 4096 0 0 0).wellFormed = false ∧
      (AsmLine.drawbox 0 0 4096 0 0).wellFormed = false ∧ (AsmLine.drawbox 0 0 0 4096 0).wellFormed = false ∧
      (AsmLine.drawbox 0 0 0 0 16).wellFormed = false := by decide

theorem test_illFormed_dword : (AsmLine.dword (2 ^ 64)).wellFormed = false := by decide

/-- The widest operands are well formed. -/
theorem test_wellFormed_widest :
    (AsmLine.setfb 0xFFFFFFFF).wellFormed = true ∧ (AsmLine.drawbox 4095 4095 4095 4095 15).wellFormed = true ∧
      (AsmLine.colwrEdge 65535 65535 15).wellFormed = true ∧ AsmLine.init.wellFormed = true := by decide

/-! ## Tables of constants (95_test_vectors.md, T1 and T2) -/

theorem test_start_masks :
    (List.finRange 16).map startMask =
      [0xFFFF#16, 0x7FFF#16, 0x3FFF#16, 0x1FFF#16, 0x0FFF#16, 0x07FF#16, 0x03FF#16, 0x01FF#16, 0x00FF#16, 0x007F#16,
        0x003F#16, 0x001F#16, 0x000F#16, 0x0007#16, 0x0003#16, 0x0001#16] := by decide

theorem test_end_masks :
    (List.finRange 16).map endMask =
      [0x8000#16, 0xC000#16, 0xE000#16, 0xF000#16, 0xF800#16, 0xFC00#16, 0xFE00#16, 0xFF00#16, 0xFF80#16, 0xFFC0#16,
        0xFFE0#16, 0xFFF0#16, 0xFFF8#16, 0xFFFC#16, 0xFFFE#16, 0xFFFF#16] := by decide

theorem test_plane_patterns :
    (List.finRange 4).map (planePattern 5#4) = [0xFFFF#16, 0x0000#16, 0xFFFF#16, 0x0000#16] ∧
      (List.finRange 4).map (planePattern 10#4) = [0x0000#16, 0xFFFF#16, 0x0000#16, 0xFFFF#16] := by decide

/-! ## The commands, one step each -/

/-- R45, and CONFIG of R34 with ADDR_W = 16 and MASKED. -/
theorem test_reset_registers :
    [0x00, 0x04, 0x08, 0x0C, 0x10, 0x14, 0x18, 0x1C, 0x02].map State.reset.readReg =
      [0#32, 0x1000#32, 0#32, 0#32, 0#32, 0#32, 0#32, 0#32, 0#32] := by decide

/-- The boot sequence of R244 gives the state the vectors start from. -/
theorem test_boot :
    Host.Core.run Sys2Proof.core 2
      { State.reset with inputs := [.command 0x1000000000000000#64, .command 0x2000000000000000#64] } = .next ready := by
  rfl

/-- Section 4: INIT from reset. -/
theorem test_init_status : (after 0x1000000000000000#64 State.reset).map State.statusReg = some 0x102#32 := by
  decide +kernel

/-- L1-1: ColTable[35] = (16, 3), RowTable[6] = 960. -/
theorem test_init_tables :
    (after 0x1000000000000000#64 State.reset).map (fun t => (t.colTable[35], t.rowTable[6])) =
      some (⟨16#8, 3#4⟩, 960#15) := by decide +kernel

/-- E26. -/
theorem test_setfb_last_base :
    (after 0x2000000000008300#64 ready).map (fun t => (t.statusReg, t.fbBase)) = some (0x206#32, 0x8300#32) := by
  decide +kernel

/-- E27. -/
theorem test_setfb_past_end :
    (after 0x2000000000008302#64 ready).map (fun t => (t.statusReg, t.fbBase)) = some (0x25E#32, 0#32) := by
  decide +kernel

/-- Section 4: the last pixel. -/
theorem test_xlate_last_pixel :
    (after 0x30000000000C713F#64 ready).map (fun t => (t.statusReg, t.res0)) = some (0x306#32, 0x000F7CF8#32) := by
  decide +kernel

/-- E17: a failing XLATE leaves RES0. -/
theorem test_xlate_outOfRange :
    (after 0x3000000000000140#64 { ready with res0 := 0x12345678#32 }).map (fun t => (t.statusReg, t.res0)) =
      some (0x31E#32, 0x12345678#32) := by decide +kernel

/-- Section 5: the span 20..35. -/
theorem test_emask_span :
    (after 0x4000000023000014#64 State.reset).map (fun t => [t.res0, t.res1, t.res2, t.res3]) =
      some [0xF0000FFF#32, 0x0FFFF000#32, 0xFFFF0000#32, 0x02013401#32] := by decide +kernel

/-- E28. -/
theorem test_emask_reversed : (after 0x400000001E000028#64 State.reset).map State.statusReg = some 0x428#32 := by
  decide +kernel

/-- Section 6: SINGLE with colour 5 under MASKED. -/
theorem test_colwr_single_masked :
    (after 0x500500000FF00000#64 (withColumn ready 0xAAAA#16 0x5555#16 0xFFFF#16 0x0000#16)).map (column 0) =
      some [0xAFFA#16, 0x5005#16, 0xFFFF#16, 0x0000#16] := by decide +kernel

/-- Section 6: EDGE with colour 10 under LITERAL. -/
theorem test_colwr_edge_literal :
    (after 0x501A00000FF00000#64 (withColumn readyLiteral 0xAAAA#16 0x5555#16 0xFFFF#16 0x0000#16)).map (column 0) =
      some [0xAAAA#16, 0x5FF5#16, 0x0FF0#16, 0x0000#16] := by decide +kernel

/-- D1, the source's example: the columns at 808 and 976, and the byte order of the first. -/
theorem test_drawbox_example :
    (after 0x6007006023005014#64 ready).map (fun t => (column 808 t, column 976 t, t.byteAt 808, t.byteAt 809)) =
      some ([0x0FFF#16, 0x0FFF#16, 0x0FFF#16, 0#16], [0xF000#16, 0xF000#16, 0xF000#16, 0#16], 0x0F#8, 0xFF#8) := by
  decide +kernel

/-- D2: the same under LITERAL is colour 3. -/
theorem test_drawbox_literal :
    (after 0x6007006023005014#64 readyLiteral).map (column 808) = some [0x0FFF#16, 0x0FFF#16, 0#16, 0#16] := by
  decide +kernel

/-- E8: COLWR with ROLE = 3. -/
theorem test_illegal_status : (after 0x5030000000000000#64 ready).map State.statusReg = some 0x53E#32 := by
  decide +kernel

/-- The step after `withFetchWord` is the command's run: EMASK 30, 40 from reset (E29). -/
theorem test_withFetchWord :
    ∃ t, step (State.reset.withFetchWord 64 0x400000002800001E) = .next t ∧ t.statusReg = 0x400#32 :=
  ⟨_, rfl, by decide +kernel⟩

/-! ## The engine -/

/-- Section 7, reset after k = 5 accesses: plane 2 of the column at 808 has been read and not written. -/
theorem test_reset_after_five :
    (match runEngine 5 (ready.accept 0x6007006023005014#64) with
      | .next t => some (column 808 t.assertReset, t.assertReset.statusReg)
      | .fault _ => none
      | .refused _ => none) = some ([0x0FFF#16, 0x0FFF#16, 0#16, 0#16], 0#32) := by decide +kernel

/-- A write by another agent to a word the running command touches marks the word (R75). -/
theorem test_race_marks_its_word :
    ((drawing 0).disturb { word := 0x6007006023005014#64, done := 0, latch := 0#16, raced := [] }
      (commandAccesses 0x6007006023005014#64 ready) 809 0x55#8).engine =
    .running { word := 0x6007006023005014#64, done := 0, latch := 0#16, raced := [808] } := by decide +kernel

/-- A byte equal to what an unlisted address reads as is not listed. -/
theorem test_memory_canonical : Memory.writeByte [(5, 1#8), (7, 2#8)] 5 0#8 = [(7, 2#8)] := by decide

/-! ## Witnesses: for each statement with hypotheses, a state and operands that meet them all -/

/-- The next states of steps that the witnesses run. -/
def run (s : State) (input : Input) : Host.Outcome State Fault Refusal := step { s with inputs := [input] }

/-- The machine goes on. -/
def goesOn : Host.Outcome State Fault Refusal → Bool
  | .next _ => true
  | .fault _ => false
  | .refused _ => false

theorem next_of_goesOn {o : Host.Outcome State Fault Refusal} (h : goesOn o = true) : ∃ t, o = .next t := by
  cases o with
  | next t => exact ⟨t, rfl⟩
  | fault f => cases h
  | refused r => cases h

theorem ready_tables : ready.tablesBuilt := ⟨rfl, rfl⟩

theorem ready_surface : ready.surfaceOk := by unfold State.surfaceOk; decide

theorem readyLiteral_surface : readyLiteral.surfaceOk := by unfold State.surfaceOk; decide

theorem ready_inv : ready.Inv :=
  ⟨⟨.nil, fun _ h => (nomatch h)⟩, fun _ h => (nomatch h), ready_surface, fun _ => ready_tables, fun _ h => (nomatch h)⟩

/-- The source's example box has 32 accesses (L1-5). -/
theorem example_accesses : (commandAccesses 0x6007006023005014#64 (drawing 0)).length = 32 := by decide +kernel

theorem drawing_inv : (drawing 0).Inv := by
  refine ⟨⟨.nil, fun _ h => (nomatch h)⟩, fun _ h => (nomatch h), ready_surface, fun _ => ready_tables, ?_⟩
  intro r h
  cases h
  exact Nat.zero_le _

/-- The hypotheses on a box that is drawn, at the edges of every range: the whole screen. -/
theorem witness_DrawboxWritesItsColumns :
    ready.initDone = true ∧ ready.tablesBuilt ∧ ready.fbValid = true ∧ ready.surfaceOk ∧
      (0#12).toNat ≤ (319#12).toNat ∧ (319#12).toNat < 320 ∧ (0#12).toNat < (199#12).toNat ∧ (199#12).toNat < 200 ∧
      (∃ y col i, (0#12).toNat ≤ y ∧ y ≤ (199#12).toNat ∧ (0#12).toNat / 16 ≤ col ∧ col ≤ (319#12).toNat / 16 ∧
        32000 = ready.fbBase.toNat + y * 160 + col * 8 + 2 * i + 2) ∧
      (∀ y col : Nat, (0#12).toNat ≤ y → y ≤ (199#12).toNat → (0#12).toNat / 16 ≤ col → col ≤ (319#12).toNat / 16 →
        32000 < ready.fbBase.toNat + y * 160 + col * 8 ∨ ready.fbBase.toNat + y * 160 + col * 8 + 8 ≤ 32000) := by
  refine ⟨rfl, ready_tables, rfl, ready_surface, by decide, by decide, by decide, by decide,
    ⟨199, 19, 3, by decide, by decide, by decide, by decide, by decide⟩, ?_⟩
  intro y col _ hy _ hc
  have h1 : y ≤ 199 := hy
  have h2 : col ≤ 19 := hc
  have h3 : ready.fbBase.toNat = 0 := rfl
  omega

theorem witness_DrawboxFillsExactlyTheBoxMasked :
    ready.params.edgeMode = .masked ∧ ready.initDone = true ∧ ready.tablesBuilt ∧ ready.fbValid = true ∧
      ready.surfaceOk ∧ (319#12).toNat ≤ (319#12).toNat ∧ (319#12).toNat < 320 ∧ (198#12).toNat < (199#12).toNat ∧
      (199#12).toNat < 200 ∧ ¬ ready.inSurface 32000 :=
  ⟨rfl, rfl, ready_tables, rfl, ready_surface, by decide, by decide, by decide, by decide,
    by unfold State.inSurface; decide⟩

theorem witness_DrawboxPerBitLiteral :
    readyLiteral.params.edgeMode = .literal ∧ readyLiteral.initDone = true ∧ readyLiteral.tablesBuilt ∧
      readyLiteral.fbValid = true ∧ readyLiteral.surfaceOk ∧ (8#12).toNat ≤ (56#12).toNat ∧ (56#12).toNat < 320 ∧
      (0#12).toNat < (1#12).toNat ∧ (1#12).toNat < 200 ∧ ¬ readyLiteral.inSurface 32000 :=
  ⟨rfl, rfl, ⟨rfl, rfl⟩, rfl, readyLiteral_surface, by decide, by decide, by decide, by decide,
    by unfold State.inSurface; decide⟩

theorem witness_DrawboxReportsErrorsInOrder :
    (opField 0x6010000000000000#64 = 0x6#4 ∧ (0x6010000000000000#64).extractLsb 59 52 ≠ 0) ∧
      decode 0x600F0090000C7000#64 = .ok (.drawbox 0#12 199#12 0#12 9#12 15#4) ∧ State.reset.initDone = false ∧
      (ready.initDone = true ∧ ({ ready with fbValid := false } : State).fbValid = false) ∧
      (ready.initDone = true ∧ ready.fbValid = true ∧ 320 ≤ (320#12).toNat ∧ 200 ≤ (200#12).toNat) ∧
      ((40#12).toNat < 320 ∧ (30#12).toNat < 320 ∧ (199#12).toNat < 200 ∧ (30#12).toNat < (40#12).toNat) ∧
      ((319#12).toNat < 320 ∧ (9#12).toNat < 200 ∧ (8#12).toNat < (9#12).toNat) := by decide

theorem witness_DrawboxOfOneRowDrawsNothing :
    ready.initDone = true ∧ ready.fbValid = true ∧ (0#12).toNat ≤ (319#12).toNat ∧ (319#12).toNat < 320 ∧
      (199#12).toNat < 200 := by decide

theorem witness_DrawboxStoresAtRisingAddresses :
    ready.tablesBuilt ∧
      ((commandAccesses (encode (.drawbox 20#12 5#12 35#12 6#12 7#4)) ready)[0]?).map (fun x => x.isWrite) =
        some false := ⟨ready_tables, by decide +kernel⟩

theorem witness_ColwrFollowsItsRule :
    State.reset.fbValid = false ∧ ready.fbValid = true ∧ (809#16).toNat % 8 ≠ 0 ∧ 31992 < (32000#16).toNat ∧
      ready.surfaceOk ∧ (31992#16).toNat % 8 = 0 ∧ (31992#16).toNat ≤ 31992 ∧
      32000 ≥ ready.fbBase.toNat + (31992#16).toNat + 8 ∧
      (opField 0x501700000FF00328#64 = 0x5#4 ∧ (0x501700000FF00328#64).extractLsb 53 52 = 1#2) ∧
      (0x500700000FF00328#64).extractLsb 53 52 = 0#2 ∧ (0x502700000FF00328#64).extractLsb 53 52 = 2#2 :=
  ⟨rfl, rfl, by decide, by decide, ready_surface, by decide, by decide, by decide, by decide, by decide, by decide⟩

/-- The last column, FULL and SINGLE; and the conditions under which it fails. -/
theorem witness_ColwrAccessOrder :
    decode 0x5027000000007CF8#64 = .ok (.colwr .full 7#4 0#16 31992#16) ∧
      decode 0x5007000000007CF8#64 = .ok (.colwr .single 7#4 0#16 31992#16) ∧
      (ready.fbValid = true ∧ (31992#16).toNat % 8 = 0 ∧ (31992#16).toNat ≤ 31992 ∧
        31992 = ready.fbBase.toNat + (31992#16).toNat) ∧
      State.reset.fbValid = false ∧ (31993#16).toNat % 8 ≠ 0 ∧ 31992 < (32000#16).toNat := by decide

/-- A pixel inside the mask, one outside it, and one outside the column; FULL and SINGLE. -/
theorem witness_ColwrPixelEffectMasked :
    ready.params.edgeMode = .masked ∧ ready.fbValid = true ∧ ready.surfaceOk ∧ (488#16).toNat % 8 = 0 ∧
      (488#16).toNat ≤ 31992 ∧
      (3 * 160 + 17 / 16 * 8 = (488#16).toNat ∧ (0x7FFF#16).getLsbD (15 - 17 % 16) = true) ∧
      (3 * 160 + 16 / 16 * 8 = (488#16).toNat ∧ Role.single ≠ .full ∧ (0x7FFF#16).getLsbD (15 - 16 % 16) = false) ∧
      4 * 160 + 17 / 16 * 8 ≠ (488#16).toNat :=
  ⟨rfl, rfl, ready_surface, by decide, by decide, by decide, by decide, by decide⟩

theorem witness_EncodeOfDecodeIsIdentity : decode 0x600FFFFFFFFFFFFF#64 =
    .ok (.drawbox 4095#12 4095#12 4095#12 4095#12 15#4) := by decide

theorem witness_DecodeAgreesWithMatchMaskTable :
    ∃ row ∈ opcodeTable, row.accepts 0x502F0000000001E8#64 = true ∧ row.mnemonic = "COLWR" ∧
      (0x502F0000000001E8#64).extractLsb 53 52 ≠ 3#2 := by decide

theorem witness_OperandsAreTheirFields :
    decode 0x20000000FFFFFFFF#64 = .ok (.setfb 0xFFFFFFFF#32) ∧
      decode 0x3000000000FFFFFF#64 = .ok (.xlate 4095#12 4095#12) ∧
      decode 0x4000000FFF000FFF#64 = .ok (.emask 4095#12 4095#12) ∧
      decode 0x502F0000FFFFFFFF#64 = .ok (.colwr .full 15#4 0xFFFF#16 0xFFFF#16) ∧
      decode 0x600FFFFFFFFFFFFF#64 = .ok (.drawbox 4095#12 4095#12 4095#12 4095#12 15#4) := by decide

theorem witness_AssembledLineDecodesToItsOperands :
    AsmLine.init.assemble = some 0x1000000000000000#64 ∧
      (AsmLine.setfb 0xFFFFFFFF).assemble = some 0x20000000FFFFFFFF#64 ∧
      (AsmLine.xlate 4095 4095).assemble = some 0x3000000000FFFFFF#64 ∧
      (AsmLine.emask 4095 4095).assemble = some 0x4000000FFF000FFF#64 ∧
      (AsmLine.colwrSingle 65535 65535 15).assemble = some 0x500F0000FFFFFFFF#64 ∧
      (AsmLine.colwrEdge 65535 65535 15).assemble = some 0x501F0000FFFFFFFF#64 ∧
      (AsmLine.colwrFull 65535 15).assemble = some 0x502F00000000FFFF#64 ∧
      (AsmLine.drawbox 4095 4095 4095 4095 15).assemble = some 0x600FFFFFFFFFFFFF#64 ∧
      (AsmLine.dword (2 ^ 64 - 1)).assemble = some 0xFFFFFFFFFFFFFFFF#64 := by decide

/-- The first value of each kind of operand that does not fit (R103). -/
theorem test_assembly_errors :
    (AsmLine.setfb (2 ^ 32)).assemble = none ∧ (AsmLine.xlate 4096 0).assemble = none ∧
      (AsmLine.emask 0 4096).assemble = none ∧ (AsmLine.colwrSingle 65536 0 0).assemble = none ∧
      (AsmLine.colwrEdge 0 65536 0).assemble = none ∧ (AsmLine.colwrFull 0 16).assemble = none ∧
      (AsmLine.drawbox 0 0 0 4096 0).assemble = none ∧ (AsmLine.dword (2 ^ 64)).assemble = none := by decide

theorem witness_StepRunsDecodedCommand :
    ∃ s : State, s.engine = .idle ∧ s.inputs = [.command 0x1000000000000000#64] ∧
      decode 0x1000000000000000#64 = .ok .init :=
  ⟨{ State.reset with inputs := [.command 0x1000000000000000#64] }, rfl, rfl, by decide⟩

/-- One word for each cause of IllegalCommand. -/
theorem witness_IllegalWordHasNoOtherEffect :
    State.reset.engine = .idle ∧
      ({ State.reset with inputs := [.command 0#64] } : State).inputs = .command 0#64 :: [] ∧
      illegalWord 0x0000000000000000#64 ∧ illegalWord 0x7000000000000000#64 ∧ illegalWord 0x1000000000000001#64 ∧
      illegalWord 0x5030000000000000#64 := by
  refine ⟨rfl, rfl, ?_, ?_, ?_, ?_⟩ <;>
    unfold illegalWord reservedOpcodeWord setsMustBeZero reservedRoleWord <;> decide

/-- An idle and a running engine with a submission waiting; the running one takes a step. -/
theorem witness_SubmissionIsAcceptedOnlyWhenIdle :
    ready.busy = false ∧ (drawing 0).Inv ∧
      (∃ r t, ({ drawing 0 with inputs := [.submit 0#64] } : State).engine = .running r ∧
        run (drawing 0) (.submit 0#64) = .next t) := by
  obtain ⟨t, ht⟩ := next_of_goesOn (o := run (drawing 0) (.submit 0#64)) (by decide +kernel)
  exact ⟨rfl, drawing_inv, _, t, rfl, ht⟩

/-- The offsets at which the clauses meet. -/
theorem witness_RegisterReadsFollowTheMap :
    (∃ s : State, s.inputs = [.readReg 0x18]) ∧ ¬ (0x18 % 4 ≠ 0 ∨ 0x18 < 0x18) ∧ 0x18 < 0x1C ∧ 0x17 % 4 ≠ 0 ∧
      0x00 % 4 = 0 := ⟨⟨{ ready with inputs := [.readReg 0x18] }, rfl⟩, by decide, by decide, by decide, by decide⟩

theorem witness_ConfigRegisterIsConstant : ∃ t, run ready .reset = .next t := ⟨_, rfl⟩

theorem witness_ResetGivesTheResetValues : ({ drawing 0 with inputs := [.reset] } : State).inputs = .reset :: [] := rfl

theorem witness_CommandsAfterReset : (319#12).toNat ≤ (319#12).toNat ∧ (319#12).toNat < 320 := by decide

/-- The last base of the 16-bit and of the smallest space. -/
theorem witness_BootSequenceMakesTheMachineReady :
    (0x8300#32).toNat % 2 = 0 ∧ (0x8300#32).toNat + 32000 ≤ 2 ^ State.reset.params.addrW.val ∧
      (0x0300#32).toNat + 32000 ≤ 2 ^ 15 := by decide

theorem witness_InitFollowsItsRule : 319 = 19 * 16 + 15 ∧ 0 = 0 * 16 + 0 ∧ opField 0x1000000000000001#64 = 0x1#4 := by
  decide

/-- The last base that fits, the first that does not, and an odd one. -/
theorem witness_SetfbFollowsItsRule :
    ((0x8300#32).toNat % 2 = 0 ∧ (0x8300#32).toNat + 32000 ≤ 2 ^ ready.params.addrW.val) ∧
      2 ^ ready.params.addrW.val < (0x8302#32).toNat + 32000 ∧ (0x1001#32).toNat % 2 ≠ 0 ∧
      opField 0x2000000100000000#64 = 0x2#4 := by decide

theorem witness_XlateFollowsItsRule :
    State.reset.initDone = false ∧ (ready.initDone = true ∧ 320 ≤ (320#12).toNat ∧ 200 ≤ (200#12).toNat) ∧
      ((319#12).toNat = (319 : Fin 320).val ∧ (199#12).toNat = (199 : Fin 200).val) ∧
      opField 0x3000000001005014#64 = 0x3#4 := by decide

theorem witness_XlateReturnsTheClosedForm :
    ready.initDone = true ∧ ready.tablesBuilt ∧ (319#12).toNat < 320 ∧ (199#12).toNat < 200 :=
  ⟨rfl, ready_tables, by decide, by decide⟩

theorem witness_EmaskFollowsItsRule :
    320 ≤ (320#12).toNat ∧ ((319#12).toNat < 320 ∧ (318#12).toNat < 320 ∧ (318#12).toNat < (319#12).toNat) ∧
      ((319#12).toNat ≤ (319#12).toNat ∧ (319#12).toNat < 320) ∧
      (0x0001#16 = 0xFFFF#16 >>> ((319#12).toNat % 16) ∧ 0xFFFF#16 = 0xFFFF#16 <<< (15 - (319#12).toNat % 16) ∧
        0x0001#16 = 0x0001#16 &&& 0xFFFF#16) ∧
      opField 0x4000000023005014#64 = 0x4#4 := by decide

/-- A failing word; a column write; a box with one column, one with several, and one of one row. -/
theorem witness_AccessCounts :
    (∃ t, runWord 0#64 ready = .next t ∧ t.err ≠ .ok) ∧
      (ready.fbValid = true ∧ (31992#16).toNat % 8 = 0 ∧ (31992#16).toNat ≤ 31992) ∧
      (ready.initDone = true ∧ (0#12).toNat ≤ (319#12).toNat ∧ (319#12).toNat < 320 ∧
        (0#12).toNat ≤ (199#12).toNat ∧ (199#12).toNat < 200 ∧ 19 = (319#12).toNat / 16 - (0#12).toNat / 16) ∧
      0 = (15#12).toNat / 16 - (0#12).toNat / 16 := ⟨⟨_, rfl, by decide +kernel⟩, by decide, by decide, by decide⟩

theorem witness_CompositionPerBit :
    (true = (0x8000#16).getLsbD 15 ∧ false = (0x0FFF#16).getLsbD 15 ∧ true = (0xFFFF#16).getLsbD 15) ∧
      (0x0FF0#16).getLsbD 4 = true := by decide

theorem witness_UniformPatternFormulas :
    (0xFFFF#16 = 0xFFFF#16 ∨ 0xFFFF#16 = 0x0000#16) ∧ (0x0000#16 = 0xFFFF#16 ∨ 0x0000#16 = 0x0000#16) ∧
      Role.single ≠ .full ∧ Role.edge ≠ .full ∧ 2 ≤ (2 : Fin 4).val ∧ (1 : Fin 4).val < 2 := by decide

theorem witness_BoxScanlineCount : (0 : Fin 200) ≤ 199 ∧ (199 : Fin 200) ≤ 199 := by decide

theorem witness_PlaneWordsAreBigEndian : (7 : Nat) ≠ 5 ∧ (7 : Nat) ≠ 5 + 1 := by decide

/-- The last byte of the space and the first past it, an idle and a running engine. -/
theorem witness_HostSeesPlainMemory :
    (∃ s : State, s.inputs = [.readByte 65535] ∧ s.engine = (drawing 0).engine ∧ 65535 < 2 ^ s.params.addrW.val) ∧
      (∃ s : State, s.inputs = [.writeByte 65535 1#8] ∧ s.engine = .idle ∧ 65535 < 2 ^ s.params.addrW.val) ∧
      (∃ s : State, s.inputs = [.writeByte 65536 1#8] ∧ 2 ^ s.params.addrW.val ≤ 65536) :=
  ⟨⟨{ drawing 0 with inputs := [.readByte 65535] }, rfl, rfl, by decide⟩,
    ⟨{ ready with inputs := [.writeByte 65535 1#8] }, rfl, rfl, by decide⟩,
    ⟨{ ready with inputs := [.writeByte 65536 1#8] }, rfl, by decide⟩⟩

theorem witness_CanonicalMemoriesAreEqualWhenTheyReadEqual :
    Memory.wf [(5, 1#8)] ∧ ∀ a, Memory.readByte [(5, 1#8)] a = Memory.readByte [(5, 1#8)] a :=
  ⟨by decide, fun _ => rfl⟩

theorem witness_EveryAccessIsInTheFramebuffer :
    ready.Inv ∧ ∃ x, x ∈ commandAccesses 0x6007006023005014#64 ready ∧ x.addr = 808 :=
  ⟨ready_inv, .read 808, by decide +kernel, rfl⟩

theorem witness_CommandsChangeOnlyTheFramebuffer : ready.Inv ∧ ¬ ready.inSurface 32000 :=
  ⟨ready_inv, by unfold State.inSurface; decide⟩

theorem witness_FailedCommandsChangeOnlyStatus : ∃ t, runWord 0x3000000000000140#64 ready = .next t ∧ t.err ≠ .ok :=
  ⟨_, rfl, by decide +kernel⟩

theorem witness_CompletionUpdatesStatus : ready.Inv := ready_inv

/-- A command that fails, one that is neither XLATE nor EMASK, and one that writes RES0 alone. -/
theorem witness_ResultRegistersHaveTwoWriters :
    (∃ t, exec (.emask 40#12 30#12) ready = .next t ∧ t.err ≠ .ok) ∧
      (∃ t, exec .init ready = .next t ∧ Instr.init.opcode ≠ 0x3#4 ∧ Instr.init.opcode ≠ 0x4#4) ∧
      (∃ t, exec (.xlate 1#12 1#12) ready = .next t ∧ (Instr.xlate 1#12 1#12).opcode ≠ 0x4#4) :=
  ⟨⟨_, rfl, by decide +kernel⟩, ⟨_, rfl, by decide, by decide⟩, ⟨_, rfl, by decide⟩⟩

theorem witness_EachRegisterHasItsWriter :
    ∃ t, exec (.emask 30#12 40#12) ready = .next t ∧ (Instr.emask 30#12 40#12).opcode ≠ 0x2#4 ∧
      (Instr.emask 30#12 40#12).opcode ≠ 0x1#4 ∧ (Instr.emask 30#12 40#12).opcode ≠ 0x5#4 ∧
      (Instr.emask 30#12 40#12).opcode ≠ 0x6#4 := ⟨_, rfl, by decide, by decide, by decide, by decide⟩

/-- All three bits set before a step; and the steps that set INIT_DONE, FB_VALID and ANYERR. -/
theorem witness_StickyBitsAreClearedByResetOnly :
    (∃ s t : State, step s = .next t ∧ s.inputs.head? ≠ some .reset ∧ s.initDone = true ∧ s.fbValid = true ∧
      s.anyErr = true) ∧
    (∃ s t : State, step s = .next t ∧ s.inputs.head? ≠ some .reset ∧ s.initDone = false ∧ t.initDone = true) ∧
    (∃ s t : State, step s = .next t ∧ s.inputs.head? ≠ some .reset ∧ s.fbValid = false ∧ t.fbValid = true) ∧
    (∃ s t : State, step s = .next t ∧ s.inputs.head? ≠ some .reset ∧ s.anyErr = false ∧ t.anyErr = true) :=
  ⟨⟨{ ready with anyErr := true }, _, rfl, by decide, rfl, rfl, rfl⟩,
    ⟨{ State.reset with inputs := [.command 0x1000000000000000#64] }, _, rfl, by decide, rfl, rfl⟩,
    ⟨{ State.reset with inputs := [.command 0x2000000000000000#64] }, _, rfl, by decide, rfl, rfl⟩,
    ⟨{ State.reset with inputs := [.command 0x0000000000000000#64] }, _, rfl, by decide, rfl, rfl⟩⟩

theorem witness_StepKeepsTheInvariant : (drawing 0).Inv ∧ ∃ t, step (drawing 0) = .next t :=
  ⟨drawing_inv, next_of_goesOn (by decide +kernel)⟩

/-- The last byte the memory space has. -/
theorem witness_InvariantStatesNeverStop :
    ∃ s : State, s.Inv ∧ s.inputs.head? = some (.readByte 65535) ∧
      (∀ a, s.inputs.head? = some (.readByte a) → a < 2 ^ s.params.addrW.val) ∧
      (∀ a v, s.inputs.head? = some (.writeByte a v) → a < 2 ^ s.params.addrW.val) := by
  refine ⟨{ ready with inputs := [.readByte 65535] }, ready_inv, rfl, ?_, ?_⟩
  · intro a h
    cases h
    decide
  · intro a v h
    cases h

theorem witness_EngineStepsMakeTheWholeCommand :
    ∃ s : State, s.engine = .idle ∧ s.inputs = [.submit 0x6007006023005014#64] :=
  ⟨{ ready with inputs := [.submit 0x6007006023005014#64] }, rfl, rfl⟩

theorem witness_RunningCommandsComplete : (drawing 0).Inv ∧ ∃ r, (drawing 0).engine = .running r :=
  ⟨drawing_inv, _, rfl⟩

/-- Stopped before its first access, in the middle and after its last. -/
theorem witness_RunningCommandShowsOldRegisters :
    ready.Inv ∧ ready.engine = .idle ∧ 0 ≤ (commandAccesses 0x6007006023005014#64 ready).length ∧
      17 ≤ (commandAccesses 0x6007006023005014#64 ready).length ∧
      32 ≤ (commandAccesses 0x6007006023005014#64 ready).length :=
  ⟨ready_inv, rfl, Nat.zero_le _, by decide +kernel, by decide +kernel⟩

theorem witness_ResetDuringACommandKeepsItsAccesses :
    ready.Inv ∧ ready.engine = .idle ∧ 17 ≤ (commandAccesses 0x6007006023005014#64 ready).length :=
  ⟨ready_inv, rfl, by decide +kernel⟩

theorem witness_ReadersSeeOldOrNewWords :
    ready.Inv ∧ ready.engine = .idle ∧ 2 ≤ (commandAccesses 0x6007006023005014#64 ready).length ∧ 808 % 2 = 0 :=
  ⟨ready_inv, rfl, by decide +kernel, rfl⟩

/-- A byte no access of the command touches, and the second byte of the first word it touches. -/
theorem witness_WritesWhileBusyReachOneWord :
    (∃ s : State, s.engine = (drawing 0).engine ∧ s.inputs = [.writeByte 800 1#8] ∧ 800 < 2 ^ s.params.addrW.val ∧
      (commandAccesses 0x6007006023005014#64 s).all (fun x => 800 < x.addr ∨ x.addr + 2 ≤ 800) = true) ∧
    (∃ s : State, s.engine = (drawing 0).engine ∧ s.inputs = [.writeByte 809 1#8] ∧ 809 < 2 ^ s.params.addrW.val ∧
      (commandAccesses 0x6007006023005014#64 s).any (fun x => x.addr ≤ 809 ∧ 809 < x.addr + 2) = true) :=
  ⟨⟨{ drawing 0 with inputs := [.writeByte 800 1#8] }, rfl, rfl, by decide, by decide +kernel⟩,
    ⟨{ drawing 0 with inputs := [.writeByte 809 1#8] }, rfl, rfl, by decide, by decide +kernel⟩⟩

/-- After the first access of the source's example box, with its word raced: two memories that differ in that word
alone, and held words that differ, since the write that comes next is to it. -/
theorem witness_RacesSpoilOnlyTheRacedWords :
    ∃ p q : Port, ready.Inv ∧ (∀ a ∈ [808], a % 2 = 0) ∧
      (∀ a, a % 2 = 0 → a ∉ [808] → Memory.readWord p.mem a = Memory.readWord q.mem a) ∧
      (∀ a role i m c, (commandAccesses 0x6007006023005014#64 ready)[1]? = some (.merge a role i m c) →
        p.latch = q.latch ∨ a ∈ [808]) ∧
      p.latch ≠ q.latch := by
  refine ⟨⟨[(808, 1#8)], 1#16, 0⟩, ⟨[], 0#16, 0⟩, ready_inv, by decide, ?_, ?_, by decide⟩
  · intro a h2 hn
    have h1 : ¬ 808 = a := fun e => hn (by simp [e])
    have h3 : ¬ 808 = a + 1 := by omega
    simp [Memory.readWord, Memory.readByte, h1, h3]
  · intro a role i m c h
    have h808 : ((commandAccesses 0x6007006023005014#64 ready)[1]?).map Access.addr = some 808 := by decide +kernel
    rw [h] at h808
    cases h808
    exact .inr (by decide)

/-- A write to a touched word that lands between its read and its write, one before any access and one after the last
input of the engine. -/
theorem witness_WritesDuringACommandSpoilOnlyTheirWords :
    ∃ inputs : List Input, inputs = [.writeByte 65535 1#8, .engine, .writeByte 809 2#8, .engine, .writeByte 0 3#8] ∧
      ready.Inv ∧ ready.engine = .idle ∧
      (∀ input ∈ inputs, input = .engine ∨ ∃ a v, input = .writeByte a v ∧ a < 2 ^ ready.params.addrW.val) ∧
      (∀ b v, .writeByte b v ∈ inputs → b ≠ 810 ∧ b ≠ 810 + 1) := by
  refine ⟨_, rfl, ready_inv, rfl, ?_, ?_⟩
  · intro input h
    simp only [List.mem_cons, List.not_mem_nil, or_false] at h
    rcases h with rfl | rfl | rfl | rfl | rfl
    · exact .inr ⟨_, _, rfl, by decide⟩
    · exact .inl rfl
    · exact .inr ⟨_, _, rfl, by decide⟩
    · exact .inl rfl
    · exact .inr ⟨_, _, rfl, by decide⟩
  · intro b v h
    simp at h
    omega

end Sys2Proof.Tests
end

section
/-! PROOFS. The state, the register port, reset and the engine (10_state.md): the facts about one step that the
statements of this family share, and then the statements. -/

namespace Sys2Proof.Proofs

open Sys2Proof.Machine Sys2Proof.Laws

/-! ## Register writes: an effect leaves alone what it does not name -/

theorem applyEffect_surface_unchanged {eff : Effect} (s : State) (h : ∀ b, eff ≠ .surface b) :
    (s.applyEffect eff).fbBase = s.fbBase ∧ (s.applyEffect eff).fbValid = s.fbValid := by
  cases eff with
  | surface b => exact absurd rfl (h b)
  | _ => exact ⟨rfl, rfl⟩

theorem applyEffect_tables_unchanged {eff : Effect} (s : State) (h : eff ≠ .tables) :
    (s.applyEffect eff).colTable = s.colTable ∧ (s.applyEffect eff).rowTable = s.rowTable ∧
      (s.applyEffect eff).initDone = s.initDone := by
  cases eff with
  | tables => exact absurd rfl h
  | _ => exact ⟨rfl, rfl, rfl⟩

theorem applyEffect_res0_unchanged {eff : Effect} (s : State) (h : ∀ r, eff ≠ .result r)
    (h' : ∀ a b c d, eff ≠ .results a b c d) : (s.applyEffect eff).res0 = s.res0 := by
  cases eff with
  | result r => exact absurd rfl (h r)
  | results a b c d => exact absurd rfl (h' a b c d)
  | _ => rfl

theorem applyEffect_mask_results_unchanged {eff : Effect} (s : State) (h : ∀ a b c d, eff ≠ .results a b c d) :
    (s.applyEffect eff).res1 = s.res1 ∧ (s.applyEffect eff).res2 = s.res2 ∧ (s.applyEffect eff).res3 = s.res3 := by
  cases eff with
  | results a b c d => exact absurd rfl (h a b c d)
  | _ => exact ⟨rfl, rfl, rfl⟩

/-- The flags only rise (R29, R30). -/
theorem applyEffect_initDone_of_set (s : State) (eff : Effect) (h : s.initDone = true) :
    (s.applyEffect eff).initDone = true := by
  cases eff with
  | tables => rfl
  | _ => exact h

theorem applyEffect_fbValid_of_set (s : State) (eff : Effect) (h : s.fbValid = true) :
    (s.applyEffect eff).fbValid = true := by
  cases eff with
  | surface b => rfl
  | _ => exact h

/-! ## What the rule of a word can say -/

/-- Only a SETFB writes a base, and only one that names a framebuffer in the space (R200). -/
theorem verdictOf_surface_fits {i : Instr} {s : State} {xs : List Access} {b : Reg}
    (h : verdictOf i s = .proceed xs (.surface b)) : surfaceFits s.params b = true := by
  have hop : i.opcode = 0x2#4 := by
    obtain ⟨e, hv, -⟩ | ⟨ys, eff, hv, -, hs, -⟩ := verdictOf_cases i s
    · rw [h] at hv; cases hv
    · rw [h] at hv; cases hv; exact hs b rfl
  cases i with
  | setfb base =>
    simp only [verdictOf, checkSetfb] at h
    split at h
    · next hf => cases h; exact hf
    · cases h
  | _ => exact absurd hop (by simp [Instr.opcode])

/-- What a word can do: an error other than OK, or accesses and register writes, those to the tables under the opcode
of INIT and those to `FB_BASE` under that of SETFB. -/
theorem wordVerdict_cases (w : Command) (s : State) :
    (∃ e, wordVerdict w s = .raise e ∧ e ≠ .ok) ∨
    ∃ xs eff, wordVerdict w s = .proceed xs eff ∧ (eff = .tables → opField w = 0x1#4) ∧
      ∀ b, eff = .surface b → opField w = 0x2#4 ∧ surfaceFits s.params b = true := by
  cases hd : decode w with
  | error e => exact .inl ⟨.illegalCommand, by simp only [wordVerdict, hd], by decide⟩
  | ok i =>
    rw [wordVerdict_of_decode hd, decode_opcode hd]
    obtain ⟨e, hv, he⟩ | ⟨xs, eff, hv, ht, hs, -⟩ := verdictOf_cases i s
    · exact .inl ⟨e, hv, he⟩
    · refine .inr ⟨xs, eff, hv, ht, fun b hb => ⟨hs b hb, ?_⟩⟩
      subst hb
      exact verdictOf_surface_fits hv

/-! ## The end of a command (R218, R219) -/

section EndOf
variable (op : Opcode) (v : Verdict) (s : State)

@[simp] theorem endOf_raise (e : ErrCode) : endOf op (.raise e) s = s.finish op e := rfl

@[simp] theorem endOf_proceed (xs : List Access) (eff : Effect) :
    endOf op (.proceed xs eff) s = (s.applyEffect eff).finish op .ok := rfl

@[simp] theorem endOf_engine : (endOf op v s).engine = .idle := by cases v <;> rfl

@[simp] theorem endOf_busy : (endOf op v s).busy = false := by cases v <;> rfl

@[simp] theorem endOf_lastOp : (endOf op v s).lastOp = op := by cases v <;> rfl

@[simp] theorem endOf_params : (endOf op v s).params = s.params := by cases v <;> simp

@[simp] theorem endOf_inputs : (endOf op v s).inputs = s.inputs := by cases v <;> simp

/-- ANYERR is sticky (R31). -/
theorem endOf_anyErr : (endOf op v s).anyErr = true ↔ s.anyErr = true ∨ (endOf op v s).err ≠ .ok := by
  cases v <;> simp [stickyError]

theorem endOf_initDone_of_set (h : s.initDone = true) : (endOf op v s).initDone = true := by
  cases v with
  | raise e => exact h
  | proceed xs eff => exact applyEffect_initDone_of_set s eff h

theorem endOf_fbValid_of_set (h : s.fbValid = true) : (endOf op v s).fbValid = true := by
  cases v with
  | raise e => exact h
  | proceed xs eff => exact applyEffect_fbValid_of_set s eff h

end EndOf

/-- A word that sets INIT_DONE is an INIT that completes OK (R29). -/
theorem endOf_sets_initDone {w : Command} {s : State} (h : s.initDone = false)
    (h' : (endOf (opField w) (wordVerdict w s) s).initDone = true) :
    opField w = 0x1#4 ∧ (endOf (opField w) (wordVerdict w s) s).err = .ok := by
  obtain ⟨e, hv, -⟩ | ⟨xs, eff, hv, ht, -⟩ := wordVerdict_cases w s <;> rw [hv] at h' ⊢
  · simp [h] at h'
  · by_cases he : eff = .tables
    · exact ⟨ht he, rfl⟩
    · simp [(applyEffect_tables_unchanged s he).2.2, h] at h'

/-- A word that sets FB_VALID is a SETFB that completes OK (R30). -/
theorem endOf_sets_fbValid {w : Command} {s : State} (h : s.fbValid = false)
    (h' : (endOf (opField w) (wordVerdict w s) s).fbValid = true) :
    opField w = 0x2#4 ∧ (endOf (opField w) (wordVerdict w s) s).err = .ok := by
  obtain ⟨e, hv, -⟩ | ⟨xs, eff, hv, -, hs⟩ := wordVerdict_cases w s <;> rw [hv] at h' ⊢
  · simp [h] at h'
  · by_cases he : ∃ b, eff = .surface b
    · obtain ⟨b, hb⟩ := he
      exact ⟨(hs b hb).1, rfl⟩
    · simp [(applyEffect_surface_unchanged s (not_exists.1 he)).2, h] at h'

/-! ## The run of an instruction and of a word -/

/-- Everything an instruction that answers can do: its error, or its accesses and its register writes, each under the
opcodes that make them. -/
theorem exec_cases {i : Instr} {s t : State} (h : exec i s = .next t) :
    (∃ e, e ≠ .ok ∧ t = s.finish i.opcode e) ∨
    ∃ xs eff, t = ((s.performAccesses xs).applyEffect eff).finish i.opcode .ok ∧
      (eff = .tables → i.opcode = 0x1#4) ∧ (∀ b, eff = .surface b → i.opcode = 0x2#4) ∧
      (∀ r, eff = .result r → i.opcode = 0x3#4) ∧ (∀ a b c d, eff = .results a b c d → i.opcode = 0x4#4) ∧
      (xs ≠ [] → i.opcode = 0x5#4 ∨ i.opcode = 0x6#4) := by
  rw [exec_eq_runCommand] at h
  obtain ⟨e, hv, he⟩ | ⟨xs, eff, hv, hw⟩ := verdictOf_cases i s <;> rw [hv] at h
  · cases h
    exact .inl ⟨e, he, rfl⟩
  · by_cases hp : ∀ x ∈ xs, portHas s.params x.addr = true
    · rw [runCommand_proceed hp] at h
      cases h
      exact .inr ⟨xs, eff, rfl, hw⟩
    · simp [runCommand, hp] at h

/-- A word whose accesses the port has runs to its end. -/
theorem runWord_of_port {w : Command} {s : State} (h : ∀ x ∈ commandAccesses w s, portHas s.params x.addr = true) :
    runWord w s = .next (endOf (opField w) (wordVerdict w s) (s.performAccesses (commandAccesses w s))) := by
  rw [runWord_eq_runCommand]
  unfold commandAccesses at h ⊢
  cases hv : wordVerdict w s with
  | raise e => rfl
  | proceed xs eff => rw [hv] at h; exact runCommand_proceed h

/-- A word with an access the port does not have stops the machine. -/
theorem runWord_of_badPort {w : Command} {s : State} {x : Access} (hx : x ∈ commandAccesses w s)
    (h : ¬ portHas s.params x.addr = true) : runWord w s = .fault .portAddress := by
  rw [runWord_eq_runCommand]
  unfold commandAccesses at hx
  cases hv : wordVerdict w s with
  | raise e => rw [hv] at hx; cases hx
  | proceed xs eff =>
    rw [hv] at hx
    have : ¬ ∀ y ∈ xs, portHas s.params y.addr = true := fun g => h (g x hx)
    simp [runCommand, this]

/-! ## The step by its input -/

theorem step_of_inputs {s : State} {input : Input} {rest : List Input} (h : s.inputs = input :: rest) :
    step s = stepInput input s := by simp only [step, h]

theorem dropInput_of_inputs {s : State} {input : Input} {rest : List Input} (h : s.inputs = input :: rest) :
    s.dropInput = { s with inputs := rest } := by simp only [State.dropInput, h, List.tail_cons]

theorem step_of_no_inputs {s : State} (h : s.inputs = []) : step s = stepEngine s := by simp only [step, h]

theorem whenIdle_of_idle {s : State} (h : s.engine = .idle) (go : State → Host.Outcome State Fault Refusal) :
    whenIdle s go = go s.dropInput := by simp only [whenIdle, h]

theorem whenIdle_of_running {s : State} {r : Running} (h : s.engine = .running r)
    (go : State → Host.Outcome State Fault Refusal) : whenIdle s go = stepRunning r s := by simp only [whenIdle, h]

theorem busy_eq_false_iff {s : State} : s.busy = false ↔ s.engine = .idle := by
  unfold State.busy
  cases s.engine <;> simp

theorem busy_eq_true_iff {s : State} : s.busy = true ↔ ∃ r, s.engine = .running r := by
  unfold State.busy
  cases s.engine <;> simp

/-- No step of the engine touches the host's inputs. -/
theorem stepRunning_inputs {s t : State} {r : Running} (h : stepRunning r s = .next t) : t.inputs = s.inputs := by
  obtain ⟨x, p, -, -, -, rfl⟩ | ⟨-, rfl⟩ := stepRunning_cases h
  · rfl
  · exact endOf_inputs _ _ _

theorem stepEngine_inputs {s t : State} (h : stepEngine s = .next t) : t.inputs = s.inputs := by
  unfold stepEngine at h
  split at h
  · cases h; rfl
  · exact stepRunning_inputs h

/-! ## The invariant -/

/-- Memory is canonical and lies in the memory space of the machine with parameters `p` (R59): the part of
`State.Inv` that is about memory. -/
def MemoryFits (p : Params) (m : Memory) : Prop := Memory.wf m ∧ ∀ c ∈ m, c.1 < 2 ^ p.addrW.val

theorem MemoryFits.writeByte {p : Params} {m : Memory} (h : MemoryFits p m) {a : Nat} (ha : spaceHas p a = true)
    (v : Byte) : MemoryFits p (Memory.writeByte m a v) := by
  refine ⟨writeByte_wf h.1 a v, fun c hc => ?_⟩
  obtain rfl | hc := mem_writeByte hc
  · simpa [spaceHas] using ha
  · exact h.2 c hc

theorem MemoryFits.writeWord {p : Params} {m : Memory} (h : MemoryFits p m) {a : Nat} (ha : portHas p a = true)
    (v : PlaneWord) : MemoryFits p (Memory.writeWord m a v) := by
  obtain ⟨-, hb⟩ := portHas_iff.1 ha
  exact (h.writeByte (by simp [spaceHas]; omega) _).writeByte (by simp [spaceHas]; omega) _

theorem MemoryFits.perform {params : Params} {mode : EdgeMode} {raced : List Nat} {p : Port}
    (h : MemoryFits params p.mem) {x : Access} (hx : portHas params x.addr = true) :
    MemoryFits params (Port.perform mode raced p x).mem :=
  ⟨perform_wf h.1 x, perform_bounded h.2 x (portHas_iff.1 hx).2⟩

theorem MemoryFits.performAll {params : Params} {mode : EdgeMode} {raced : List Nat} {p : Port}
    (h : MemoryFits params p.mem) {xs : List Access} (hx : ∀ x ∈ xs, portHas params x.addr = true) :
    MemoryFits params (Port.performAll mode raced p xs).mem :=
  ⟨performAll_wf h.1 xs, performAll_bounded xs h.2 fun x hm => (portHas_iff.1 (hx x hm)).2⟩

theorem surfaceFits_iff {p : Params} {b : Reg} :
    surfaceFits p b = true ↔ b.toNat % 2 = 0 ∧ b.toNat + 32000 ≤ 2 ^ p.addrW.val := by simp [surfaceFits]

theorem done_le_of_inv {s : State} (h : s.Inv) :
    ∀ r, s.engine = .running r → r.done ≤ (commandAccesses r.word s).length := by
  obtain ⟨-, -, -, -, hd⟩ := h
  exact hd

theorem memoryFits_of_inv {s : State} (h : s.Inv) : MemoryFits s.params s.mem := ⟨h.1, h.2.1⟩

/-- A state that agrees with one of the invariant in what checks depend on meets it, when its memory fits and its
running command is in range. -/
theorem inv_of_sameChecks {s t : State} (hs : s.Inv) (h : SameChecks s t) (hm : MemoryFits s.params t.mem)
    (hr : ∀ r, t.engine = .running r → r.done ≤ (commandAccesses r.word s).length) : t.Inv := by
  obtain ⟨-, -, hf, ht, -⟩ := hs
  obtain ⟨hwf, hb⟩ := hm
  refine ⟨hwf, h.params ▸ hb, ?_, fun hi => ?_, fun r he => ?_⟩
  · rwa [State.surfaceOk, ← h.params, ← h.fbBase]
  · obtain ⟨hc, hrow⟩ := ht (h.initDone.trans hi)
    exact ⟨h.colTable ▸ hc, h.rowTable ▸ hrow⟩
  · rw [commandAccesses, ← h.wordVerdict_eq]
    exact hr r he

/-- The same, when the engine is as it was. -/
theorem inv_of_sameEngine {s t : State} (hs : s.Inv) (h : SameChecks s t) (he : t.engine = s.engine)
    (hm : MemoryFits s.params t.mem) : t.Inv :=
  inv_of_sameChecks hs h hm (he ▸ done_le_of_inv hs)

/-- Under the invariant the port has every access of every word (R22, R68, R81). -/
theorem commandAccesses_port {s : State} (h : s.Inv) (w : Command) :
    ∀ x ∈ commandAccesses w s, portHas s.params x.addr = true := by
  obtain ⟨-, -, hf, ht, -⟩ := h
  obtain ⟨c, cols, e, -, hcols⟩ := commandAccesses_columns w s ht
  rw [e]
  exact columnsAccesses_port hf hcols

theorem nextAccess_mem {r : Running} {s : State} {x : Access} (h : nextAccess r s = some x) :
    x ∈ commandAccesses r.word s := List.mem_of_getElem? h

/-- Register writes keep the invariant of an idle machine: a base that is written names a framebuffer (R200), the
tables are built when INIT_DONE is set (R121). -/
theorem applyEffect_inv {s : State} (h : s.Inv) {eff : Effect}
    (hs : ∀ b, eff = .surface b → surfaceFits s.params b = true) (op : Opcode) (e : ErrCode) :
    ((s.applyEffect eff).finish op e).Inv := by
  obtain ⟨hwf, hb, hf, ht, -⟩ := h
  have idle : ∀ r, ((s.applyEffect eff).finish op e).engine = .running r →
      r.done ≤ (commandAccesses r.word ((s.applyEffect eff).finish op e)).length := fun r hr => nomatch hr
  cases eff with
  | tables => exact ⟨hwf, hb, hf, fun _ => ⟨rfl, rfl⟩, idle⟩
  | surface b => exact ⟨hwf, hb, surfaceFits_iff.1 (hs b rfl), ht, idle⟩
  | _ => exact ⟨hwf, hb, hf, ht, idle⟩

theorem endOf_inv {s : State} (h : s.Inv) (w : Command) : (endOf (opField w) (wordVerdict w s) s).Inv := by
  obtain ⟨e, hv, -⟩ | ⟨xs, eff, hv, -, hs⟩ := wordVerdict_cases w s <;> rw [hv]
  · exact applyEffect_inv (eff := .none) h nofun _ _
  · exact applyEffect_inv h (fun b hb => (hs b hb).2) _ _

/-- Under the invariant every word runs to its end. -/
theorem runWord_of_inv {s : State} (h : s.Inv) (w : Command) :
    runWord w s = .next (endOf (opField w) (wordVerdict w s) (s.performAccesses (commandAccesses w s))) :=
  runWord_of_port (commandAccesses_port h w)

theorem performAccesses_sameRegs (s : State) (xs : List Access) : SameRegs s (s.performAccesses xs) :=
  SameRegs.update s _ _ _ _ _

theorem performAccesses_inv {s : State} (h : s.Inv) (w : Command) : (s.performAccesses (commandAccesses w s)).Inv :=
  inv_of_sameEngine h (performAccesses_sameRegs s _).toSameChecks rfl
    ((memoryFits_of_inv h).performAll (commandAccesses_port h w))

theorem runWord_inv {s t : State} (h : s.Inv) {w : Command} (ht : runWord w s = .next t) : t.Inv := by
  rw [runWord_of_inv h w, (performAccesses_sameRegs s (commandAccesses w s)).toSameChecks.wordVerdict_eq] at ht
  cases ht
  exact endOf_inv (performAccesses_inv h w) w

theorem dropInput_inv {s : State} (h : s.Inv) : s.dropInput.Inv :=
  inv_of_sameEngine h (dropInput_sameRegs s).toSameChecks rfl (memoryFits_of_inv h)

theorem accept_inv {s : State} (h : s.Inv) (w : Command) : (s.accept w).Inv := by
  refine inv_of_sameChecks h ⟨rfl, rfl, rfl, rfl, rfl, rfl⟩ (memoryFits_of_inv h) fun r hr => ?_
  cases hr
  exact Nat.zero_le _

/-- A running command's access keeps the invariant, and so does its end (R43). -/
theorem stepRunning_inv {s t : State} (h : s.Inv) {r : Running} (ht : stepRunning r s = .next t) : t.Inv := by
  obtain ⟨x, p, hx, hp, rfl, rfl⟩ | ⟨-, rfl⟩ := stepRunning_cases ht
  · refine inv_of_sameChecks h ⟨rfl, rfl, rfl, rfl, rfl, rfl⟩ ((memoryFits_of_inv h).perform hp) fun r' hr' => ?_
    cases hr'
    exact (List.getElem?_eq_some_iff.1 hx).1
  · exact endOf_inv h r.word

theorem stepEngine_inv {s t : State} (h : s.Inv) (ht : stepEngine s = .next t) : t.Inv := by
  unfold stepEngine at ht
  split at ht
  · cases ht; exact h
  · exact stepRunning_inv h ht

theorem whenIdle_inv {s t : State} {go : State → Host.Outcome State Fault Refusal} (h : s.Inv)
    (hgo : ∀ t, go s.dropInput = .next t → t.Inv) (ht : whenIdle s go = .next t) : t.Inv := by
  unfold whenIdle at ht
  split at ht
  · exact hgo t ht
  · exact stepRunning_inv h ht

/-- Another agent's write while a command runs keeps the invariant: the word it spoils is one of the command's, so it
lies in the space (R75). -/
theorem disturb_inv {s : State} (h : s.Inv) {r : Running} (hr : s.engine = .running r) {addr : Nat}
    (ha : spaceHas s.params addr = true) (v : Byte) :
    (s.disturb r (commandAccesses r.word s) addr v).Inv := by
  obtain ⟨-, e⟩ | ⟨a, hw, e⟩ := disturb_cases s r (commandAccesses r.word s) addr v <;> rw [e]
  · exact inv_of_sameEngine h ⟨rfl, rfl, rfl, rfl, rfl, rfl⟩ rfl ((memoryFits_of_inv h).writeByte ha v)
  · obtain ⟨⟨x, hx, rfl⟩, -, -⟩ := touchedWord_some hw
    refine inv_of_sameChecks h ⟨rfl, rfl, rfl, rfl, rfl, rfl⟩
      ((memoryFits_of_inv h).writeWord (commandAccesses_port h r.word x hx) _) fun r' hr' => ?_
    cases hr'
    exact done_le_of_inv h r hr

theorem hostWriteByte_inv {s t : State} (h : s.Inv) {addr : Nat} {v : Byte}
    (ht : hostWriteByte s addr v = .next t) : t.Inv := by
  unfold hostWriteByte at ht
  split at ht
  · next ha =>
    split at ht
    · cases ht
      exact inv_of_sameEngine h ⟨rfl, rfl, rfl, rfl, rfl, rfl⟩ rfl ((memoryFits_of_inv h).writeByte ha v)
    · next r hr =>
      cases ht
      exact disturb_inv h hr ha v
  · cases ht

theorem hostReadByte_inv {s t : State} (h : s.Inv) {addr : Nat} (ht : s.hostReadByte addr = .next t) : t.Inv := by
  unfold State.hostReadByte at ht
  split at ht
  · cases ht
    exact inv_of_sameEngine h ⟨rfl, rfl, rfl, rfl, rfl, rfl⟩ rfl (memoryFits_of_inv h)
  · cases ht

theorem hostReadReg_inv {s : State} (h : s.Inv) (off : Nat) : (s.hostReadReg off).Inv :=
  inv_of_sameEngine h ⟨rfl, rfl, rfl, rfl, rfl, rfl⟩ rfl (memoryFits_of_inv h)

/-- The reset value 0 of `FB_BASE` names a framebuffer in every memory space, since `ADDR_W ≥ 15` (R35). -/
theorem reset_surface_fits (p : Params) : (0#32).toNat % 2 = 0 ∧ (0#32).toNat + 32000 ≤ 2 ^ p.addrW.val := by
  refine ⟨rfl, ?_⟩
  calc (0#32).toNat + 32000 ≤ 2 ^ 15 := by decide
    _ ≤ 2 ^ p.addrW.val := Nat.pow_le_pow_right (by decide) p.addrW.property.1

/-- Reset meets the invariant over every memory that fits (R45, R242). -/
theorem assertReset_inv {s : State} (h : MemoryFits s.params s.mem) : s.assertReset.Inv :=
  ⟨h.1, h.2, reset_surface_fits s.params, nofun, nofun⟩

/-- Whatever the outside world does, the step keeps the invariant. -/
theorem stepInput_inv {s t : State} (h : s.Inv) {input : Input} (ht : stepInput input s = .next t) : t.Inv := by
  have hd := dropInput_inv h
  cases input with
  | command w => exact whenIdle_inv h (fun _ => runWord_inv hd) ht
  | submit w =>
    refine whenIdle_inv (go := fun u => .next (u.accept w)) h (fun u hu => ?_) ht
    cases hu
    exact accept_inv hd w
  | engine => exact stepEngine_inv hd ht
  | readReg off => cases ht; exact hostReadReg_inv hd off
  | readByte addr => exact hostReadByte_inv hd ht
  | writeByte addr v => exact hostWriteByte_inv hd ht
  | reset => cases ht; exact assertReset_inv (memoryFits_of_inv hd)

/-- Settles O50: each input of the outside world keeps the invariant, and so does the engine's own step. -/
theorem stepKeepsTheInvariant : Obligations.StepKeepsTheInvariant := by
  intro s t h ht
  unfold step at ht
  split at ht
  · exact stepEngine_inv h ht
  · exact stepInput_inv h ht

/-! ## Acceptance (R20, R43, R245) -/

/-- The next step of a running command, under the invariant, answers (R252). -/
theorem stepRunning_answers {s : State} (h : s.Inv) (r : Running) : ∃ t, stepRunning r s = .next t := by
  unfold stepRunning
  cases hx : nextAccess r s with
  | none => exact ⟨_, rfl⟩
  | some x => exact ⟨_, if_pos (commandAccesses_port h r.word x (nextAccess_mem hx))⟩

/-- A running command goes on with the same word, or ends (R43). -/
theorem stepRunning_engine {s t : State} {r : Running} (h : stepRunning r s = .next t) :
    t.engine = .idle ∨ ∃ r', t.engine = .running r' ∧ r'.word = r.word := by
  obtain ⟨x, p, -, -, -, rfl⟩ | ⟨-, rfl⟩ := stepRunning_cases h
  · exact .inr ⟨_, rfl, rfl⟩
  · exact .inl (endOf_engine _ _ _)

/-- Settles O10: an idle engine accepts, and a running one takes its own next step instead. -/
theorem submissionIsAcceptedOnlyWhenIdle : Obligations.SubmissionIsAcceptedOnlyWhenIdle := by
  intro s w rest hin
  have hstep : step s = whenIdle s fun t => .next (t.accept w) := step_of_inputs hin
  refine ⟨fun hb => ?_, fun r t hr ht => ?_, fun r hinv hr => ?_⟩
  · refine ⟨s.dropInput.accept w, ?_, rfl, ?_⟩
    · rw [hstep, whenIdle_of_idle (busy_eq_false_iff.1 hb)]
    · rw [dropInput_of_inputs hin]; rfl
  · rw [hstep, whenIdle_of_running hr] at ht
    exact ⟨stepRunning_inputs ht, stepRunning_engine ht⟩
  · rw [hstep, whenIdle_of_running hr]
    exact stepRunning_answers hinv r

/-! ## Completion and the writers of the registers (R29 to R36, R219) -/

/-- Settles O45: under the invariant every word runs to its end, which says what STATUS holds. -/
theorem completionUpdatesStatus : Obligations.CompletionUpdatesStatus := by
  intro s w h
  exact ⟨_, runWord_of_inv h w, endOf_engine _ _ _, endOf_busy _ _ _, endOf_lastOp _ _ _, endOf_anyErr _ _ _⟩

/-- Settles O46: an error changes no result register, and only the effects of XLATE and EMASK name one. -/
theorem resultRegistersHaveTwoWriters : Obligations.ResultRegistersHaveTwoWriters := by
  intro i s t h
  obtain ⟨e, -, rfl⟩ | ⟨xs, eff, rfl, -, -, hx, he, -⟩ := exec_cases h
  · exact ⟨fun _ => rfl, fun _ => ⟨rfl, rfl, rfl⟩⟩
  · refine ⟨fun hc => ?_, fun hc => ?_⟩
    · obtain hne | ⟨h3, h4⟩ := hc
      · exact absurd rfl hne
      · exact applyEffect_res0_unchanged _ (fun r e => h3 (hx r e)) fun a b c d e => h4 (he a b c d e)
    · obtain hne | h4 := hc
      · exact absurd rfl hne
      · exact applyEffect_mask_results_unchanged _ fun a b c d e => h4 (he a b c d e)

/-- Settles O47: an error changes no register; each effect, like the accesses, belongs to the opcodes that make it. -/
theorem eachRegisterHasItsWriter : Obligations.EachRegisterHasItsWriter := by
  intro i s t h
  obtain ⟨e, -, rfl⟩ | ⟨xs, eff, rfl, ht, hs, -, -, hm⟩ := exec_cases h
  · exact ⟨fun _ => ⟨rfl, rfl⟩, fun _ => ⟨rfl, rfl, rfl⟩, fun _ _ => rfl, rfl, rfl, rfl, rfl⟩
  · refine ⟨fun h2 => ?_, fun h1 => ?_, fun h5 h6 => ?_, by simp, by simp, by simp, ?_⟩
    · exact applyEffect_surface_unchanged _ fun b e => h2 (hs b e)
    · exact applyEffect_tables_unchanged _ fun e => h1 (ht e)
    · obtain rfl : xs = [] := by
        by_contra hne
        obtain h | h := hm hne
        · exact h5 h
        · exact h6 h
      simp [State.port]
    · simp [performAll_fresh, State.port]

/-- Settles O48: a step other than reset keeps the registers or ends a command, whose end names what it sets. -/
theorem stickyBitsAreClearedByResetOnly : Obligations.StickyBitsAreClearedByResetOnly := by
  intro s t h hr
  obtain hs | ⟨w, u, hs, rfl⟩ := step_registers h hr
  · rw [hs.initDone, hs.fbValid, hs.anyErr]
    exact ⟨id, id, id, fun h0 h1 => (nomatch h0.symm.trans h1), fun h0 h1 => (nomatch h0.symm.trans h1),
      fun h0 h1 => (nomatch h0.symm.trans h1)⟩
  · rw [hs.initDone, hs.fbValid, hs.anyErr]
    refine ⟨endOf_initDone_of_set _ _ _, endOf_fbValid_of_set _ _ _, fun ha => (endOf_anyErr _ _ _).2 (.inl ha),
      fun h0 h1 => ?_, fun h0 h1 => ?_, fun h0 h1 => ⟨?_, endOf_engine _ _ _⟩⟩
    · obtain ⟨hop, herr⟩ := endOf_sets_initDone h0 h1
      exact ⟨(endOf_lastOp _ _ _).trans hop, herr, endOf_engine _ _ _⟩
    · obtain ⟨hop, herr⟩ := endOf_sets_fbValid h0 h1
      exact ⟨(endOf_lastOp _ _ _).trans hop, herr, endOf_engine _ _ _⟩
    · exact ((endOf_anyErr _ _ _).1 h1).resolve_left (by simp [h0])

/-! ## The engine access by access (R43, R73, R219, R246) -/

theorem run_succ_of_step {s t : State} (h : step s = .next t) (n : Nat) :
    Host.Core.run Sys2Proof.core (n + 1) s = Host.Core.run Sys2Proof.core n t := by
  have hc : Sys2Proof.core.step s = .next t := h
  simp only [Host.Core.run, hc]

/-- With no input left, steps of the machine are steps of the engine (log entry 16). -/
theorem run_eq_runEngine (n : Nat) {s : State} (h : s.inputs = []) :
    Host.Core.run Sys2Proof.core n s = runEngine n s := by
  induction n generalizing s with
  | zero => rfl
  | succ n ih =>
    have hstep : Sys2Proof.core.step s = stepEngine s := step_of_no_inputs h
    simp only [Host.Core.run, runEngine, hstep]
    cases ht : stepEngine s with
    | next t => exact ih ((stepEngine_inputs ht).trans h)
    | fault f => rfl
    | refused r => rfl

/-- From acceptance, one step for each access and one for the end make the run of the whole word, also where that run
stops: both stop at the first access the port does not have (log entry 9). -/
theorem runEngine_accept_eq_runWord (s : State) (w : Command) :
    runEngine ((commandAccesses w s).length + 1) (s.accept w) = runWord w s := by
  by_cases hbad : ∃ j, ∃ h : j < (commandAccesses w s).length,
      ¬ portHas s.params ((commandAccesses w s)[j]).addr = true
  · classical
    obtain ⟨hj, hp⟩ := Nat.find_spec hbad
    have good : ∀ i (h : i < (commandAccesses w s).length), i < Nat.find hbad →
        portHas s.params ((commandAccesses w s)[i]).addr = true := by
      intro i h hi
      by_contra hn
      exact Nat.find_min hbad hi ⟨h, hn⟩
    rw [runWord_of_badPort (List.getElem_mem hj) hp]
    exact runEngine_fault (runEngine_accept _ hj.le good) (stepEngine_badAccess hj hp) (by omega)
  · push Not at hbad
    have good : ∀ x ∈ commandAccesses w s, portHas s.params x.addr = true := by
      intro x hx
      obtain ⟨j, hj, rfl⟩ := List.getElem_of_mem hx
      exact hbad j hj
    rw [runWord_of_port good, runEngine_succ_right (runEngine_accept _ le_rfl fun j h _ => hbad j h), stepEngine_end]

theorem commandAccesses_dropInput (w : Command) (s : State) :
    commandAccesses w s.dropInput = commandAccesses w s := by
  rw [commandAccesses, ← (dropInput_sameRegs s).toSameChecks.wordVerdict_eq, commandAccesses]

/-- Settles O52: the submission is accepted in one step, and the engine steps that follow make the whole command. -/
theorem engineStepsMakeTheWholeCommand : Obligations.EngineStepsMakeTheWholeCommand := by
  intro s w hidle hin
  have hdrop : s.dropInput = { s with inputs := [] } := dropInput_of_inputs hin
  have hstep : step s = .next (s.dropInput.accept w) :=
    (step_of_inputs hin).trans (whenIdle_of_idle hidle fun u => .next (u.accept w))
  have hin' : (s.dropInput.accept w).inputs = [] := by rw [hdrop]; rfl
  have hwhole : step { s with inputs := [.command w] } = runWord w s.dropInput := by
    rw [hdrop]
    exact whenIdle_of_idle (s := { s with inputs := [.command w] }) hidle _
  have hrun : runEngine ((commandAccesses w s).length + 1) (s.dropInput.accept w) =
      step { s with inputs := [.command w] } := by
    rw [← commandAccesses_dropInput, runEngine_accept_eq_runWord, hwhole]
  exact (run_succ_of_step hstep _).trans ((run_eq_runEngine _ hin').trans hrun)

/-- Under the invariant `k` steps of the engine perform the first `k` accesses of an accepted word. -/
theorem runEngine_accept_of_inv {s : State} (h : s.Inv) {w : Command} {k : Nat}
    (hk : k ≤ (commandAccesses w s).length) : runEngine k (s.accept w) = .next (afterAccesses s w k) :=
  runEngine_accept k hk fun _ _ _ => commandAccesses_port h w _ (List.getElem_mem _)

/-- States with the same registers show the same STATUS but for BUSY. -/
theorem statusReg_bit_of_sameRegs {s t : State} (h : SameRegs s t) {b : Nat} (hb : b ≠ 0) :
    s.statusReg.getLsbD b = t.statusReg.getLsbD b := by
  have hb' : ¬ b < 1 := by omega
  simp only [State.statusReg, BitVec.getLsbD_append, hb', if_false, h.lastOp, h.err, h.anyErr, h.fbValid,
    h.initDone]

/-- States with the same registers show the same register at every offset but that of STATUS. -/
theorem readReg_of_sameRegs {s t : State} (h : SameRegs s t) {off : Nat} (hoff : off ≠ 0) :
    s.readReg off = t.readReg off := by
  simp only [State.readReg, hoff, if_false, State.configReg, h.params, h.fbBase, h.res0, h.res1, h.res2, h.res3]

theorem afterAccesses_sameRegs (s : State) (w : Command) (k : Nat) : SameRegs (afterAccesses s w k) s :=
  ⟨afterAccesses_sameChecks s w k, rfl, rfl, rfl, rfl, rfl, rfl, rfl⟩

/-- Settles O54: after `k` accesses only memory and the engine have changed. -/
theorem runningCommandShowsOldRegisters : Obligations.RunningCommandShowsOldRegisters := by
  intro s w k h _ hk
  have same := afterAccesses_sameRegs s w k
  exact ⟨_, _, runEngine_accept_of_inv h hk, rfl, fun _ => readReg_of_sameRegs same,
    fun _ => statusReg_bit_of_sameRegs same⟩

/-! ## The command port and the register port (R20, R27 to R37, R102) -/

/-- Settles O8: an idle engine takes the command, and the run of a word that decodes is that of its instruction. -/
theorem stepRunsDecodedCommand : Obligations.StepRunsDecodedCommand := by
  intro s w rest i hidle hin hd
  have hrun : runWord w s.dropInput = exec i s.dropInput := by simp only [runWord, hd]
  rw [← dropInput_of_inputs hin, ← hrun, step_of_inputs hin]
  exact whenIdle_of_idle hidle _

/-- An offset that is no multiple of 4, or past RES3, names no register (R37). -/
theorem readReg_unmapped {s : State} {off : Nat} (h : off % 4 ≠ 0 ∨ 0x18 < off) : s.readReg off = 0#32 := by
  unfold State.readReg
  repeat rw [if_neg (by omega)]

/-- Settles O11: the value replied is `readReg` of the offset. -/
theorem registerReadsFollowTheMap : Obligations.RegisterReadsFollowTheMap := by
  intro s off rest hin
  refine ⟨s.readReg off, ?_, ?_, ?_, ?_, ?_, ?_, ?_, ?_, readReg_unmapped⟩
  · rw [step_of_inputs hin, stepInput, dropInput_of_inputs hin]; rfl
  all_goals rintro rfl; rfl

/-- STATUS as a sum of its fields at their weights (R27). -/
theorem statusReg_toNat (s : State) : s.statusReg.toNat =
    s.lastOp.toNat * 2 ^ 8 + s.err.code.toNat * 2 ^ 4 + s.anyErr.toNat * 2 ^ 3 + s.fbValid.toNat * 2 ^ 2 +
      s.initDone.toNat * 2 + s.busy.toNat := by
  simp only [State.statusReg, toNat_append_add, BitVec.toNat_ofBool, BitVec.toNat_ofNat]
  omega

/-- CONFIG as a sum of its fields at their weights (R34). -/
theorem configReg_toNat (s : State) :
    s.configReg.toNat = s.params.addrW.val * 2 ^ 8 + (edgeModeBit s.params.edgeMode).toNat := by
  have := s.params.addrW.property.2
  simp only [State.configReg, toNat_append_add, BitVec.toNat_ofNat]
  omega

theorem edgeModeBit_eq_one_iff (m : EdgeMode) : (edgeModeBit m).toNat = 1 ↔ m = .literal := by
  cases m <;> decide

/-- A bit of a register as a remainder of its number. -/
theorem getLsbD_eq_iff {n : Nat} (x : BitVec n) (k : Nat) (b : Bool) :
    x.getLsbD k = b ↔ x.toNat / 2 ^ k % 2 = b.toNat := by
  rw [BitVec.getLsbD, Nat.testBit_eq_decide_div_mod_eq]
  cases b <;> simp

/-- Settles O12: each field is read off the sum. -/
theorem statusRegisterLayout : Obligations.StatusRegisterLayout := by
  refine ⟨fun s => ?_, rfl, rfl, rfl, rfl, rfl, rfl⟩
  have hsum := statusReg_toNat s
  have h1 := s.busy.toNat_lt
  have h2 := s.initDone.toNat_lt
  have h3 := s.fbValid.toNat_lt
  have h4 := s.anyErr.toNat_lt
  have h5 := s.err.code.isLt
  have h6 := s.lastOp.isLt
  simp only [getLsbD_eq_iff, BitVec.extractLsb, extract_eq_iff, hsum, Bool.toNat_false, BitVec.ofNat_eq_ofNat,
    BitVec.toNat_ofNat]
  exact ⟨by omega, by omega, by omega, by omega, by omega, by omega, by omega, by omega, busy_eq_true_iff⟩

/-- Every step leaves the parameters as they are, reset included (R34). -/
theorem step_params {s t : State} (h : step s = .next t) : t.params = s.params := by
  by_cases hr : s.inputs.head? = some .reset
  · obtain ⟨rest, hin⟩ := List.head?_eq_some_iff.1 hr
    rw [step_of_inputs hin] at h
    cases h; rfl
  · obtain hs | ⟨w, u, hs, rfl⟩ := step_registers h hr
    · exact hs.params.symm
    · rw [endOf_params, hs.params]

/-- Settles O13: each field is read off the sum, and CONFIG shows nothing but the parameters. -/
theorem configRegisterIsConstant : Obligations.ConfigRegisterIsConstant := by
  intro s
  have hsum := configReg_toNat s
  obtain ⟨hlo, hhi⟩ := s.params.addrW.property
  have hmode := edgeModeBit_eq_one_iff s.params.edgeMode
  have hbit := (edgeModeBit s.params.edgeMode).isLt
  have hw : (s.configReg.extractLsb 13 8).toNat = s.params.addrW.val := by
    rw [BitVec.extractLsb, toNat_extract, hsum]
    omega
  refine ⟨?_, ?_, hw, hw ▸ hlo, hw ▸ hhi, ?_, by decide, fun t ht => ?_⟩
  · rw [getLsbD_eq_iff, hsum, ← hmode, Bool.toNat_true]
    omega
  · rw [BitVec.extractLsb, extract_eq_iff, hsum]
    simp only [BitVec.ofNat_eq_ofNat, BitVec.toNat_ofNat]
    omega
  · rw [BitVec.extractLsb, extract_eq_iff, hsum]
    simp only [BitVec.ofNat_eq_ofNat, BitVec.toNat_ofNat]
    omega
  · rw [State.configReg, step_params ht, State.configReg]

/-! ## Reset (R45, R240, R242) -/

theorem assertReset_statusReg (s : State) : s.assertReset.statusReg = 0#32 := by
  simp [State.statusReg, State.busy, ErrCode.code]

/-- Settles O14: the step is `assertReset` of the state with the input taken. -/
theorem resetGivesTheResetValues : Obligations.ResetGivesTheResetValues := by
  intro s rest hin
  refine ⟨s.dropInput.assertReset, step_of_inputs hin, rfl, assertReset_statusReg _, rfl, rfl, rfl, rfl, rfl, rfl,
    rfl, ?_, rfl⟩
  rw [assertReset_inputs, dropInput_inputs, hin, List.tail_cons]

theorem resetWith_inv (p : Params) (n : Nat) : (State.resetWith p n).Inv :=
  ⟨⟨.nil, nofun⟩, nofun, reset_surface_fits p, nofun, nofun⟩

/-- Settles O49: nothing is listed in memory, and `FB_BASE` is 0. -/
theorem resetStateMeetsTheInvariant : Obligations.ResetStateMeetsTheInvariant :=
  fun p n => ⟨resetWith_inv p n, resetWith_inv Config.params 0⟩

end Sys2Proof.Proofs
end

section
/-! PROOFS. Memory (20_memory.md): what the host's byte accesses and the engine's steps do, where the accesses of a
command lie, what a reader sees while one runs, and how far another agent's writes reach. -/

namespace Sys2Proof.Proofs

open Sys2Proof.Machine Sys2Proof.Laws

/-! ## Bytes and plane words (R64, R65) -/

/-- Settles O38: each byte of a plane word is one of its halves, and reading appends them. -/
theorem planeWordsAreBigEndian : Obligations.PlaneWordsAreBigEndian := by
  intro m a v
  refine ⟨?_, ?_, fun b h0 h1 => ?_, toNat_append_add _ _, readWord_writeWord_same m a v⟩
  · rw [readByte_writeWord, if_pos rfl]; rfl
  · rw [readByte_writeWord, if_neg (by omega), if_pos rfl]; rfl
  · rw [readByte_writeWord, if_neg h0, if_neg h1]

/-- Bit `15 - p` of a plane word is bit `7 - p mod 8` of its byte number `p div 8`: the first byte holds the pixels
0..7 (R65). -/
theorem readWord_getLsbD (m : Memory) (a : Nat) {p : Nat} (hp : p < 16) :
    (Memory.readWord m a).getLsbD (15 - p) = (Memory.readByte m (a + p / 8)).getLsbD (7 - p % 8) := by
  rw [Memory.readWord, BitVec.getLsbD_append]
  by_cases h : p < 8
  · rw [if_neg (by omega), show a + p / 8 = a by omega, show 15 - p - 8 = 7 - p % 8 by omega]
  · rw [if_pos (by omega), show a + p / 8 = a + 1 by omega, show 15 - p = 7 - p % 8 by omega]

/-- Settles O39: pixel x is pixel number x mod 16 of its plane word. -/
theorem pixelBitInItsByte : Obligations.PixelBitInItsByte := by
  intro s x y i
  have h := readWord_getLsbD s.mem (planeAddr s x y i) (Nat.mod_lt x.val (by decide : 16 > 0))
  rwa [Nat.mod_mod_of_dvd x.val (by decide : 8 ∣ 16)] at h

/-! ## The host's byte accesses (R59, R70, R75) -/

theorem spaceHas_iff {p : Params} {a : Nat} : spaceHas p a = true ↔ a < 2 ^ p.addrW.val := by simp [spaceHas]

section HostAccess
variable {s : State} {a : Nat} {v : Byte}

theorem hostReadByte_of_lt (h : a < 2 ^ s.params.addrW.val) :
    s.hostReadByte a = .next { s with replies := .byte a (s.byteAt a) :: s.replies } := if_pos (spaceHas_iff.2 h)

theorem hostReadByte_of_le (h : 2 ^ s.params.addrW.val ≤ a) : s.hostReadByte a = .fault .noSuchByte :=
  if_neg fun g => absurd (spaceHas_iff.1 g) (not_lt.2 h)

theorem hostWriteByte_of_le (h : 2 ^ s.params.addrW.val ≤ a) : hostWriteByte s a v = .fault .noSuchByte :=
  if_neg fun g => absurd (spaceHas_iff.1 g) (not_lt.2 h)

theorem hostWriteByte_of_idle (h : a < 2 ^ s.params.addrW.val) (he : s.engine = .idle) :
    hostWriteByte s a v = .next { s with mem := Memory.writeByte s.mem a v } := by
  simp only [hostWriteByte, spaceHas_iff.2 h, if_true, he]

theorem hostWriteByte_of_running (h : a < 2 ^ s.params.addrW.val) {r : Running} (he : s.engine = .running r) :
    hostWriteByte s a v = .next (s.disturb r (commandAccesses r.word s) a v) := by
  simp only [hostWriteByte, spaceHas_iff.2 h, if_true, he, commandAccesses]

end HostAccess

/-- Settles O40: the step is the byte access itself, of the state with the input taken. -/
theorem hostSeesPlainMemory : Obligations.HostSeesPlainMemory := by
  intro s a rest
  refine ⟨fun hin ha => ?_, fun v hin he ha => ?_, fun input hin hacc ha => ?_⟩
  · rw [step_of_inputs hin, stepInput, hostReadByte_of_lt (s := s.dropInput) ha, dropInput_of_inputs hin]; rfl
  · refine ⟨{ s with inputs := rest, mem := Memory.writeByte s.mem a v }, ?_, rfl, ?_, fun b hb => ?_⟩
    · rw [step_of_inputs hin, stepInput, hostWriteByte_of_idle (s := s.dropInput) ha he, dropInput_of_inputs hin]
    · exact (readByte_writeByte s.mem a a v).trans (if_pos rfl)
    · exact (readByte_writeByte s.mem a b v).trans (if_neg hb)
  · rw [step_of_inputs hin]
    obtain rfl | ⟨v, rfl⟩ := hacc
    · exact hostReadByte_of_le ha
    · exact hostWriteByte_of_le ha

/-- Settles O57: the byte's own plane word, when the command touches it, is the one an agent's write reaches. -/
theorem writesWhileBusyReachOneWord : Obligations.WritesWhileBusyReachOneWord := by
  intro s r a v rest he hin ha
  have hstep : step s = .next (s.dropInput.disturb r (commandAccesses r.word s) a v) := by
    rw [step_of_inputs hin, stepInput, hostWriteByte_of_running (s := s.dropInput) ha he, commandAccesses_dropInput]
  rw [dropInput_of_inputs hin] at hstep
  obtain ⟨hnone, e⟩ | ⟨b, hsome, e⟩ :=
    disturb_cases { s with inputs := rest } r (commandAccesses r.word s) a v <;> rw [e] at hstep
  · refine ⟨fun _ => hstep, fun ⟨x, hx, hle, hlt⟩ => ?_⟩
    have := touchedWord_none.1 hnone x hx
    omega
  · obtain ⟨⟨x, hx, hxb⟩, hle, hlt⟩ := touchedWord_some hsome
    refine ⟨fun hfar => ?_, fun _ => ⟨_, b, hstep, hsome, ⟨x, hx, hxb⟩, hle, hlt, readWord_writeWord_same _ _ _,
      fun d h0 h1 => ?_, rfl⟩⟩
    · have := hfar x hx
      omega
    · exact (readByte_writeWord _ _ _ _).trans ((if_neg h0).trans (if_neg h1))

/-! ## Where the accesses of a command lie (R68, R81) -/

/-- Under the invariant both bytes of every access of every word lie in the framebuffer (R81). -/
theorem commandAccesses_inSurface {s : State} (h : s.Inv) {w : Command} {x : Access} (hx : x ∈ commandAccesses w s) :
    s.fbBase.toNat ≤ x.addr ∧ x.addr + 2 ≤ s.fbBase.toNat + 32000 := by
  obtain ⟨-, -, -, ht, -⟩ := h
  obtain ⟨c, cols, e, -, hcols⟩ := commandAccesses_columns w s ht
  rw [e] at hx
  obtain ⟨col, hcol, i, hi⟩ := columnsAccesses_addr hx
  have := hcols col hcol
  omega

/-- Under the invariant every access of every word is to an even address (R68). -/
theorem commandAccesses_even {s : State} (h : s.Inv) {w : Command} {x : Access} (hx : x ∈ commandAccesses w s) :
    x.addr % 2 = 0 := (portHas_iff.1 (commandAccesses_port h w x hx)).1

/-- Settles O42: the port has the access (R22), and its column is one of the framebuffer's. -/
theorem everyAccessIsInTheFramebuffer : Obligations.EveryAccessIsInTheFramebuffer := by
  intro s w h x hx
  obtain ⟨heven, hspace⟩ := portHas_iff.1 (commandAccesses_port h w x hx)
  obtain ⟨hlo, hhi⟩ := commandAccesses_inSurface h hx
  exact ⟨heven, hlo, by omega, by omega⟩

section EndOf
variable (op : Opcode) (v : Verdict) (s : State)

@[simp] theorem endOf_mem : (endOf op v s).mem = s.mem := by cases v <;> simp

@[simp] theorem endOf_replies : (endOf op v s).replies = s.replies := by cases v <;> simp

end EndOf

/-- Settles O43: the end of a command leaves memory to its accesses, and they all lie in the framebuffer. -/
theorem commandsChangeOnlyTheFramebuffer : Obligations.CommandsChangeOnlyTheFramebuffer := by
  intro s w h
  refine ⟨_, runWord_of_inv h w, fun a ha => ?_⟩
  rw [State.byteAt, endOf_mem]
  refine performAll_byte _ s.port a fun x hx _ => ?_
  have := commandAccesses_inSurface h hx
  unfold State.inSurface at ha
  omega

/-! ## No stop (R71, R252) -/

theorem stepEngine_of_idle {s : State} (h : s.engine = .idle) : stepEngine s = .next s := by
  simp only [stepEngine, h]

theorem stepEngine_of_running {s : State} {r : Running} (h : s.engine = .running r) :
    stepEngine s = stepRunning r s := by simp only [stepEngine, h]

theorem stepEngine_answers {s : State} (h : s.Inv) : ∃ t, stepEngine s = .next t := by
  cases he : s.engine with
  | idle => exact ⟨s, stepEngine_of_idle he⟩
  | running r => rw [stepEngine_of_running he]; exact stepRunning_answers h r

theorem whenIdle_answers {s : State} (h : s.Inv) {go : State → Host.Outcome State Fault Refusal}
    (hgo : ∃ t, go s.dropInput = .next t) : ∃ t, whenIdle s go = .next t := by
  cases he : s.engine with
  | idle => rwa [whenIdle_of_idle he]
  | running r => rw [whenIdle_of_running he]; exact stepRunning_answers h r

theorem hostWriteByte_answers {s : State} {a : Nat} (h : a < 2 ^ s.params.addrW.val) (v : Byte) :
    ∃ t, hostWriteByte s a v = .next t := by
  cases he : s.engine with
  | idle => exact ⟨_, hostWriteByte_of_idle h he⟩
  | running r => exact ⟨_, hostWriteByte_of_running h he⟩

/-- Settles O51: each input of the outside world gets an answer, and so does the engine's own step. -/
theorem invariantStatesNeverStop : Obligations.InvariantStatesNeverStop := by
  intro s h hread hwrite
  have hd := dropInput_inv h
  cases hin : s.inputs with
  | nil => rw [step_of_no_inputs hin]; exact stepEngine_answers h
  | cons input rest =>
    rw [hin, List.head?_cons] at hread hwrite
    rw [step_of_inputs hin]
    cases input with
    | command w => exact whenIdle_answers h ⟨_, runWord_of_inv hd w⟩
    | submit w => exact whenIdle_answers (go := fun t => .next (t.accept w)) h ⟨_, rfl⟩
    | engine => exact stepEngine_answers hd
    | readReg off => exact ⟨_, rfl⟩
    | readByte a => exact ⟨_, hostReadByte_of_lt (s := s.dropInput) (hread a rfl)⟩
    | writeByte a v => exact hostWriteByte_answers (s := s.dropInput) (hwrite a v rfl) v
    | reset => exact ⟨_, rfl⟩

/-! ## What a reader sees while a command runs (R69, R75, R187) -/

/-- No plane word is stored to twice (R187). -/
theorem commandAccesses_rising {s : State} (h : s.Inv) (w : Command) :
    (((commandAccesses w s).filter Access.isWrite).map Access.addr).Pairwise (· < ·) := by
  obtain ⟨-, -, -, ht, -⟩ := h
  obtain ⟨c, cols, e, hsorted, -⟩ := commandAccesses_columns w s ht
  rw [e]
  exact columnsAccesses_rising s c cols hsorted

/-- Where the stores of a list of accesses are to different words, one word is not stored to both in a first part of
the list and in what is left. -/
theorem stores_once {xs ys : List Access}
    (h : (((xs ++ ys).filter Access.isWrite).map Access.addr).Pairwise (· < ·)) {x y : Access} (hx : x ∈ xs)
    (hy : y ∈ ys) (hwx : x.isWrite = true) (hwy : y.isWrite = true) : x.addr ≠ y.addr := by
  rw [List.filter_append, List.map_append, List.pairwise_append] at h
  obtain ⟨-, -, hlt⟩ := h
  exact (hlt _ (List.mem_map_of_mem (List.mem_filter.2 ⟨hx, hwx⟩)) _
    (List.mem_map_of_mem (List.mem_filter.2 ⟨hy, hwy⟩))).ne

/-- Accesses to even addresses, none of which stores to `a`, leave the plane word at `a`. -/
theorem performAll_word_of_ne {mode : EdgeMode} {raced : List Nat} {xs : List Access} {p : Port} {a : Nat}
    (ha : a % 2 = 0) (heven : ∀ x ∈ xs, x.addr % 2 = 0) (hne : ∀ x ∈ xs, x.isWrite = true → x.addr ≠ a) :
    Memory.readWord (Port.performAll mode raced p xs).mem a = Memory.readWord p.mem a :=
  performAll_word_untouched xs p a fun x hx hw => by
    have := heven x hx
    have := hne x hx hw
    omega

/-- Settles O56: a word the accesses left do not store to is final, and any other is not stored to before them. -/
theorem readersSeeOldOrNewWords : Obligations.ReadersSeeOldOrNewWords := by
  intro s w k a h _ hk ha
  refine ⟨_, _, runEngine_accept_of_inv h hk, runWord_of_inv h w, ?_⟩
  set xs := commandAccesses w s with hxs
  have hsplit : xs.take k ++ xs.drop k = xs := List.take_append_drop k xs
  by_cases hlater : ∃ y ∈ xs.drop k, y.isWrite = true ∧ y.addr = a
  · obtain ⟨y, hy, hwy, rfl⟩ := hlater
    refine .inl (performAll_word_of_ne ha (fun x hx => commandAccesses_even h (List.mem_of_mem_take hx)) ?_)
    have hrising := commandAccesses_rising h w
    rw [← hxs, ← hsplit] at hrising
    exact fun x hx hwx => stores_once hrising hx hy hwx hwy
  · refine .inr ?_
    rw [State.wordAt, State.wordAt, endOf_mem, performAccesses_mem]
    conv_rhs => rw [← hsplit, performAll_append]
    refine (performAll_word_of_ne ha (fun x hx => commandAccesses_even h (List.mem_of_mem_drop hx)) ?_).symm
    exact fun x hx hwx hxa => hlater ⟨x, hx, hwx, hxa⟩

/-! ## Broken exclusive access, access by access (R75) -/

/-- The two memories hold the same plane words but for those `spoiled` names. -/
def AgreeOutside (spoiled : Nat → Prop) (m n : Memory) : Prop :=
  ∀ a, a % 2 = 0 → ¬ spoiled a → Memory.readWord m a = Memory.readWord n a

/-- Two ports agree before the access `next`: in memory but for the spoiled words, and in the word held, unless the
access is a masked write to a spoiled word. -/
structure PortsAgree (spoiled : Nat → Prop) (next : Option Access) (p q : Port) : Prop where
  mem : AgreeOutside spoiled p.mem q.mem
  latch : ∀ a role i m c, next = some (.merge a role i m c) → p.latch = q.latch ∨ spoiled a

theorem commandAccesses_readsFirst {s : State} (h : s.Inv) (w : Command) : ReadsFirst (commandAccesses w s) := by
  obtain ⟨-, -, -, ht, -⟩ := h
  obtain ⟨c, cols, e, -, -⟩ := commandAccesses_columns w s ht
  rw [e]
  exact columnsAccesses_readsFirst s c cols

/-- A store puts its own value in its word, unless the word is raced. -/
theorem store_mem (raced : List Nat) (a : Nat) (v : PlaneWord) (p : Port) :
    ∃ u, (Port.store raced a v p).mem = Memory.writeWord p.mem a u ∧ (a ∉ raced → u = v) := by
  unfold Port.store
  split
  · next h => exact ⟨_, rfl, fun hn => absurd h hn⟩
  · exact ⟨v, rfl, fun _ => rfl⟩

section Agree
variable {spoiled : Nat → Prop} {mode : EdgeMode} {raced : List Nat} {p q : Port}

/-- Storing to one even address keeps the agreement, when the values stored are equal or the word is spoiled. -/
theorem AgreeOutside.writeWord {m n : Memory} (h : AgreeOutside spoiled m n) {a : Nat} (ha : a % 2 = 0)
    {v w : PlaneWord} (hv : ¬ spoiled a → v = w) :
    AgreeOutside spoiled (Memory.writeWord m a v) (Memory.writeWord n a w) := by
  intro b hb hs
  by_cases e : b = a
  · subst e
    rw [readWord_writeWord_same, readWord_writeWord_same, hv hs]
  · rw [readWord_writeWord_other _ _ (by omega), readWord_writeWord_other _ _ (by omega), h b hb hs]

theorem AgreeOutside.store (h : AgreeOutside spoiled p.mem q.mem) (hr : ∀ a ∈ raced, spoiled a) {a : Nat}
    (ha : a % 2 = 0) {v w : PlaneWord} (hv : v = w ∨ spoiled a) :
    AgreeOutside spoiled (Port.store raced a v p).mem (Port.store [] a w q).mem := by
  obtain ⟨v', e1, h1⟩ := store_mem raced a v p
  obtain ⟨w', e2, h2⟩ := store_mem [] a w q
  rw [e1, e2]
  refine h.writeWord ha fun hs => ?_
  rw [h1 fun hm => hs (hr a hm), h2 (by simp), hv.resolve_right hs]

/-- One access keeps two ports in agreement: what it stores is spoiled or the same in both, and the word it reads is
spoiled or the same, which a masked write next is to (R164). -/
theorem PortsAgree.perform {xs : List Access} (hf : ReadsFirst xs) (heven : ∀ x ∈ xs, x.addr % 2 = 0) {k : Nat}
    {x : Access} (hx : xs[k]? = some x) (hr : ∀ a ∈ raced, spoiled a) (h : PortsAgree spoiled xs[k]? p q) :
    PortsAgree spoiled xs[k + 1]? (Port.perform mode raced p x) (Port.perform mode [] q x) := by
  have hxeven : x.addr % 2 = 0 := heven x (List.mem_of_getElem? hx)
  refine ⟨?_, fun a role i m c hnext => ?_⟩
  · cases x with
    | read a => exact h.mem
    | write a v => exact h.mem.store hr hxeven (.inl rfl)
    | merge a role i m c =>
      refine h.mem.store hr hxeven ?_
      obtain hl | hs := h.latch a role i m c hx
      · exact .inl (by rw [hl])
      · exact .inr hs
  · obtain ⟨j, hj, hread⟩ := hf (k + 1) a role i m c hnext
    obtain rfl : k = j := by omega
    obtain rfl : x = .read a := Option.some.inj (hx.symm.trans hread)
    by_cases hs : spoiled a
    · exact .inr hs
    · exact .inl (h.mem a hxeven hs)

/-- The accesses left after the first `k` keep the agreement of memory. -/
theorem PortsAgree.performAll {xs : List Access} (hf : ReadsFirst xs) (heven : ∀ x ∈ xs, x.addr % 2 = 0)
    (hr : ∀ a ∈ raced, spoiled a) {k : Nat} (h : PortsAgree spoiled xs[k]? p q) :
    AgreeOutside spoiled (Port.performAll mode raced p (xs.drop k)).mem
      (Port.performAll mode [] q (xs.drop k)).mem := by
  generalize hys : xs.drop k = ys
  induction ys generalizing k p q with
  | nil => exact h.mem
  | cons x ys ih =>
    have hx : xs[k]? = some x := by rw [← List.head?_drop, hys, List.head?_cons]
    exact ih (h.perform hf heven hx hr) (by rw [← List.tail_drop, hys, List.tail_cons])

end Agree

/-- Settles O58: the raced words are the spoiled ones. -/
theorem racesSpoilOnlyTheRacedWords : Obligations.RacesSpoilOnlyTheRacedWords := by
  intro s w k raced p q h _ hmem hlatch
  have agree : PortsAgree (· ∈ raced) (commandAccesses w s)[k]? p q := ⟨hmem, hlatch⟩
  exact agree.performAll (commandAccesses_readsFirst h w) (fun _ => commandAccesses_even h) fun _ => id

/-! ## Broken exclusive access over whole runs (R75, R247, R250) -/

theorem sameRegs_symm {s t : State} (h : SameRegs s t) : SameRegs t s :=
  ⟨h.toSameChecks.symm, h.anyErr.symm, h.err.symm, h.lastOp.symm, h.res0.symm, h.res1.symm, h.res2.symm,
    h.res3.symm⟩

/-- A state with the same registers is an update of what is not a register. -/
theorem eq_update_of_sameRegs {s t : State} (h : SameRegs s t) : t = { s with
    engine := t.engine, mem := t.mem, inputs := t.inputs, replies := t.replies, fresh := t.fresh } := by
  obtain ⟨⟨h1, h2, h3, h4, h5, h6⟩, h7, h8, h9, h10, h11, h12, h13⟩ := h
  rw [h1, h2, h3, h4, h5, h6, h7, h8, h9, h10, h11, h12, h13]

/-- The end of a command writes the same registers whatever memory, engine and host it finds. -/
theorem endOf_sameRegs {s t : State} (h : SameRegs s t) (op : Opcode) (v : Verdict) :
    SameRegs (endOf op v s) (endOf op v t) := by
  rw [eq_update_of_sameRegs h]
  cases v with
  | raise e => exact SameRegs.update _ _ _ _ _ _
  | proceed xs eff => cases eff <;> exact SameRegs.update _ _ _ _ _ _

theorem commandAccesses_of_sameChecks {s t : State} (h : SameChecks s t) (w : Command) :
    commandAccesses w s = commandAccesses w t := by rw [commandAccesses, h.wordVerdict_eq, commandAccesses]

/-- A running command whose next access the port has performs it (R43). -/
theorem stepRunning_of_access {s : State} {r : Running} {x : Access} {p : Port}
    (hx : (commandAccesses r.word s)[r.done]? = some x) (hp : portHas s.params x.addr = true)
    (hport : Port.perform s.params.edgeMode r.raced ⟨s.mem, r.latch, s.fresh⟩ x = p) :
    stepRunning r s = .next { s with
      mem := p.mem, fresh := p.fresh, engine := .running { r with done := r.done + 1, latch := p.latch } } := by
  have hn : nextAccess r s = some x := hx
  simp only [stepRunning, hn, hp, if_true, hport]

/-- A running command with no access left ends (R219). -/
theorem stepRunning_of_end {s : State} {r : Running} (hx : (commandAccesses r.word s)[r.done]? = none) :
    stepRunning r s = .next (endOf (opField r.word) (wordVerdict r.word s) s) := by
  have hn : nextAccess r s = none := hx
  simp only [stepRunning, hn, completeRunning_eq]

/-- The engine of `t`, disturbed, is where that of `u`, undisturbed, is: both idle, or at the same access of the same
command, no word of `u` raced and only spoiled ones of `t`. -/
inductive EnginesAgree (spoiled : Nat → Prop) (t u : State) : Prop where
  | idle (ht : t.engine = .idle) (hu : u.engine = .idle)
  | running (w : Command) (k : Nat) (p q : PlaneWord) (raced : List Nat)
      (ht : t.engine = .running { word := w, done := k, latch := p, raced := raced })
      (hu : u.engine = .running { word := w, done := k, latch := q, raced := [] })
      (hr : ∀ a ∈ raced, spoiled a)
      (hport : PortsAgree spoiled (commandAccesses w u)[k]? ⟨t.mem, p, t.fresh⟩ ⟨u.mem, q, u.fresh⟩)

/-- `t`, disturbed, follows `u`, undisturbed: they agree in everything but the spoiled words, the count of free values
and the inputs left. -/
structure Follows (spoiled : Nat → Prop) (t u : State) : Prop where
  inv : u.Inv
  regs : SameRegs u t
  replies : t.replies = u.replies
  mem : AgreeOutside spoiled t.mem u.mem
  engines : EnginesAgree spoiled t u

section Follow
variable {spoiled : Nat → Prop} {t u : State}

theorem follows_dropInput (h : Follows spoiled t u) : Follows spoiled t.dropInput u := by
  refine ⟨h.inv, h.regs.trans (dropInput_sameRegs t), h.replies, h.mem, ?_⟩
  obtain ⟨ht, hu⟩ | ⟨w, k, p, q, raced, ht, hu, hr, hport⟩ := h.engines
  · exact .idle ht hu
  · exact .running w k p q raced ht hu hr hport

/-- A step of the engine of both: the same access, or the same end. -/
theorem follows_stepEngine (h : Follows spoiled t u) :
    ∃ t' u', stepEngine t = .next t' ∧ stepEngine u = .next u' ∧ Follows spoiled t' u' := by
  obtain ⟨ht, hu⟩ | ⟨w, k, p, q, raced, ht, hu, hr, hport⟩ := h.engines
  · exact ⟨t, u, stepEngine_of_idle ht, stepEngine_of_idle hu, h⟩
  have haccs : commandAccesses w t = commandAccesses w u :=
    (commandAccesses_of_sameChecks h.regs.toSameChecks w).symm
  have hpar : t.params = u.params := h.regs.params.symm
  rw [stepEngine_of_running ht, stepEngine_of_running hu]
  cases hx : (commandAccesses w u)[k]? with
  | none =>
    have eu := stepRunning_of_end (r := ⟨w, k, q, []⟩) hx
    refine ⟨_, _, stepRunning_of_end (by rw [haccs, hx]), eu, stepRunning_inv h.inv eu, ?_, ?_, ?_, .idle ?_ ?_⟩
    · rw [h.regs.toSameChecks.wordVerdict_eq]
      exact endOf_sameRegs h.regs _ _
    · simpa using h.replies
    · simpa using h.mem
    · exact endOf_engine _ _ _
    · exact endOf_engine _ _ _
  | some x =>
    have hp : portHas u.params x.addr = true := commandAccesses_port h.inv w x (List.mem_of_getElem? hx)
    have agree := hport.perform (mode := u.params.edgeMode) (commandAccesses_readsFirst h.inv w)
      (fun _ => commandAccesses_even h.inv) hx hr
    have eu := stepRunning_of_access (r := ⟨w, k, q, []⟩) hx hp rfl
    refine ⟨_, _, stepRunning_of_access (by rw [haccs, hx]) (by rwa [hpar]) rfl, eu, stepRunning_inv h.inv eu, ?_,
      h.replies, ?_, .running w (k + 1) _ _ raced rfl rfl hr ?_⟩
    · exact (sameRegs_symm (SameRegs.update u _ _ _ _ _)).trans (h.regs.trans (SameRegs.update t _ _ _ _ _))
    · rw [hpar]; exact agree.mem
    · rw [hpar]; exact agree

/-- A byte written to a spoiled word only, in one of the two memories, keeps their agreement. -/
theorem AgreeOutside.writeByte_left {m n : Memory} (h : AgreeOutside spoiled m n) {b : Nat}
    (hs : ∀ a, b = a ∨ b = a + 1 → spoiled a) (v : Byte) : AgreeOutside spoiled (Memory.writeByte m b v) n := by
  intro a ha hn
  have h0 : a ≠ b := fun e => hn (hs a (.inl e.symm))
  have h1 : a + 1 ≠ b := fun e => hn (hs a (.inr e.symm))
  rw [← h a ha hn, Memory.readWord, readByte_writeByte, readByte_writeByte, if_neg h0, if_neg h1, Memory.readWord]

/-- So does a spoiled word written in one of them. -/
theorem AgreeOutside.writeWord_left {m n : Memory} (h : AgreeOutside spoiled m n) {b : Nat} (hb : b % 2 = 0)
    (hs : spoiled b) (v : PlaneWord) : AgreeOutside spoiled (Memory.writeWord m b v) n := by
  intro a ha hn
  have hne : a ≠ b := by rintro rfl; exact hn hs
  rw [readWord_writeWord_other _ _ (by omega), h a ha hn]

/-- A byte another agent writes, the word that holds it being spoiled, reaches no other word (R75). -/
theorem follows_hostWriteByte (h : Follows spoiled t u) {b : Nat} (hb : b < 2 ^ t.params.addrW.val) (v : Byte)
    (hs : ∀ a, b = a ∨ b = a + 1 → spoiled a) :
    ∃ t', hostWriteByte t b v = .next t' ∧ Follows spoiled t' u := by
  obtain ⟨ht, hu⟩ | ⟨w, k, p, q, raced, ht, hu, hr, hport⟩ := h.engines
  · refine ⟨_, hostWriteByte_of_idle hb ht, h.inv, h.regs.trans (SameRegs.update t _ _ _ _ _), h.replies,
      h.mem.writeByte_left hs v, .idle ht hu⟩
  · rw [hostWriteByte_of_running hb ht, commandAccesses_of_sameChecks h.regs.toSameChecks.symm]
    refine ⟨_, rfl, ?_⟩
    obtain ⟨-, e⟩ | ⟨a, htouched, e⟩ := disturb_cases t ⟨w, k, p, raced⟩ (commandAccesses w u) b v <;> rw [e]
    · have hmem := h.mem.writeByte_left hs v
      exact ⟨h.inv, h.regs.trans (SameRegs.update t _ _ _ _ _), h.replies, hmem,
        .running w k p q raced ht hu hr ⟨hmem, hport.latch⟩⟩
    · obtain ⟨⟨x, hx, rfl⟩, hle, hlt⟩ := touchedWord_some htouched
      have hsx : spoiled x.addr := hs _ (by omega)
      have hmem := h.mem.writeWord_left (commandAccesses_even h.inv hx) hsx (Config.racedWord t.fresh)
      exact ⟨h.inv, h.regs.trans (SameRegs.update t _ _ _ _ _), h.replies, hmem,
        .running w k p q (x.addr :: raced) rfl hu (List.forall_mem_cons.2 ⟨hsx, hr⟩) ⟨hmem, hport.latch⟩⟩

theorem follows_busy (h : Follows spoiled t u) : t.busy = u.busy := by
  obtain ⟨ht, hu⟩ | ⟨w, k, p, q, raced, ht, hu, -, -⟩ := h.engines <;> simp only [State.busy, ht, hu]

end Follow

theorem hostWriteByte_inputs {s t : State} {a : Nat} {v : Byte} (h : hostWriteByte s a v = .next t) :
    t.inputs = s.inputs := by
  unfold hostWriteByte at h
  split at h
  · split at h <;> cases h
    · rfl
    · exact disturb_inputs _ _ _ _ _
  · cases h

/-- A run with inputs of the engine and writes to spoiled words follows as many steps of the undisturbed engine. -/
theorem follows_run {spoiled : Nat → Prop} {inputs : List Input} {t u : State} (h : Follows spoiled t u)
    (hin : t.inputs = inputs)
    (hok : ∀ input ∈ inputs, input = .engine ∨ ∃ b v, input = .writeByte b v ∧ b < 2 ^ t.params.addrW.val ∧
      ∀ a, b = a ∨ b = a + 1 → spoiled a) :
    ∃ t' u', Host.Core.run Sys2Proof.core inputs.length t = .next t' ∧
      runEngine (inputs.count .engine) u = .next u' ∧ Follows spoiled t' u' ∧ t'.inputs = [] ∧
      u'.inputs = u.inputs := by
  induction inputs generalizing t u with
  | nil => exact ⟨t, u, rfl, rfl, h, hin, rfl⟩
  | cons input rest ih =>
    have hstep : step t = stepInput input t := step_of_inputs hin
    have hrest : t.dropInput.inputs = rest := by rw [dropInput_inputs, hin, List.tail_cons]
    obtain ⟨hhead, htail⟩ := List.forall_mem_cons.1 hok
    obtain rfl | ⟨b, v, rfl, hb, hs⟩ := hhead
    · obtain ⟨t1, u1, et, eu, h1⟩ := follows_stepEngine (follows_dropInput h)
      have hnext : step t = .next t1 := hstep.trans et
      obtain ⟨t', u', run, eng, hf, hi, hu⟩ :=
        ih h1 ((stepEngine_inputs et).trans hrest) (by rwa [step_params hnext])
      refine ⟨t', u', (run_succ_of_step hnext _).trans run, ?_, hf, hi, hu.trans (stepEngine_inputs eu)⟩
      rw [List.count_cons_self, runEngine_succ eu, eng]
    · obtain ⟨t1, et, h1⟩ := follows_hostWriteByte (follows_dropInput h) hb v hs
      have hnext : step t = .next t1 := hstep.trans et
      obtain ⟨t', u', run, eng, hf, hi, hu⟩ :=
        ih h1 ((hostWriteByte_inputs et).trans hrest) (by rwa [step_params hnext])
      refine ⟨t', u', (run_succ_of_step hnext _).trans run, ?_, hf, hi, hu⟩
      rw [List.count_cons_of_ne (by simp), eng]

/-- The inputs write a byte of the plane word at `a`. -/
def WordWritten (inputs : List Input) (a : Nat) : Prop := ∃ b v, .writeByte b v ∈ inputs ∧ (b = a ∨ b = a + 1)

/-- Just after acceptance nothing has been disturbed, whatever is to come. -/
theorem follows_accept {s : State} (h : s.Inv) (w : Command) (inputs : List Input) (spoiled : Nat → Prop) :
    Follows spoiled { s.accept w with inputs := inputs } { s.accept w with inputs := [] } := by
  have hacc := accept_inv h w
  exact ⟨inv_of_sameEngine hacc (SameRegs.update _ _ _ _ _ _).toSameChecks rfl (memoryFits_of_inv hacc),
    SameRegs.update _ _ _ _ _ _, rfl, fun _ _ _ => rfl,
    .running w 0 0#16 0#16 [] rfl rfl nofun ⟨fun _ _ _ => rfl, fun _ _ _ _ _ _ => .inl rfl⟩⟩

/-- Settles O59: the spoiled words are those with a byte written. -/
theorem writesDuringACommandSpoilOnlyTheirWords : Obligations.WritesDuringACommandSpoilOnlyTheirWords := by
  intro s w inputs h _ hok
  obtain ⟨t, u, hrun, heng, hf, hti, hui⟩ := follows_run (inputs := inputs)
    (follows_accept h w inputs (WordWritten inputs)) rfl fun input hmem => by
      obtain he | ⟨b, v, rfl, hb⟩ := hok input hmem
      · exact .inl he
      · exact .inr ⟨b, v, rfl, hb, fun a ha => ⟨b, v, hmem, ha⟩⟩
  refine ⟨t, u, hrun, heng, ?_, follows_busy hf, fun a ha hw => hf.mem a ha ?_⟩
  · have e := eq_update_of_sameRegs hf.regs
    rwa [hti.trans hui.symm, hf.replies] at e
  · rintro ⟨b, v, hmem, hb⟩
    obtain ⟨h0, h1⟩ := hw b v hmem
    exact hb.elim h0 h1

end Sys2Proof.Proofs
end

section
/-! PROOFS. The command word (30_encoding.md): what the decoder and the encoder each say of a word's fields, and from
that their round trips, the match and mask table, the words that are no command, and the assembler. -/

namespace Sys2Proof.Proofs

open Sys2Proof.Machine Sys2Proof.Laws

/-! ## The decoder, one equation per opcode (R98, R102) -/

theorem role_ofBits_eq_some_iff (b : BitVec 2) (r : Role) : Role.ofBits b = some r ↔ b = r.bits := by
  cases r <;> revert b <;> decide

theorem role_ofBits_eq_none_iff (b : BitVec 2) : Role.ofBits b = none ↔ b = 3#2 := by
  revert b
  decide

/-- The opcodes of R98: the six of the commands, and the reserved ones. -/
theorem opcode_cases (w : Command) : opField w = 0x1#4 ∨ opField w = 0x2#4 ∨ opField w = 0x3#4 ∨
    opField w = 0x4#4 ∨ opField w = 0x5#4 ∨ opField w = 0x6#4 ∨ reservedOpcodeWord w := by
  unfold reservedOpcodeWord
  generalize opField w = op
  revert op
  decide

section Opcode
variable {w : Command}

theorem decode_of_init (h : opField w = 0x1#4) : decode w =
    if w.extractLsb' 0 60 = 0#60 then .ok .init else .error .mustBeZero := by simp [decode, h]

theorem decode_of_setfb (h : opField w = 0x2#4) : decode w =
    if w.extractLsb' 32 28 = 0#28 then .ok (.setfb (baseField w)) else .error .mustBeZero := by simp [decode, h]

theorem decode_of_xlate (h : opField w = 0x3#4) : decode w =
    if w.extractLsb' 24 36 = 0#36 then .ok (.xlate (x1Field w) (y1Field w)) else .error .mustBeZero := by
  simp [decode, h]

theorem decode_of_emask (h : opField w = 0x4#4) : decode w =
    if w.extractLsb' 36 24 = 0#24 ∧ y1Field w = 0#12 then .ok (.emask (x1Field w) (x2Field w))
    else .error .mustBeZero := by simp [decode, h]

theorem decode_of_colwr (h : opField w = 0x5#4) : decode w =
    if w.extractLsb' 54 6 = 0#6 ∧ w.extractLsb' 32 16 = 0#16 then
      (Role.ofBits (roleField w)).elim (.error .reservedRole) fun role =>
        .ok (.colwr role (colorField w) (maskField w) (offsetField w))
    else .error .mustBeZero := by
  cases hr : Role.ofBits (roleField w) <;> simp [decode, h, hr]

theorem decode_of_drawbox (h : opField w = 0x6#4) : decode w =
    if w.extractLsb' 52 8 = 0#8 then
      .ok (.drawbox (x1Field w) (y1Field w) (x2Field w) (y2Field w) (colorField w))
    else .error .mustBeZero := by simp [decode, h]

theorem opField_ne_of_reservedOpcode (h : reservedOpcodeWord w) {op : Opcode} (h0 : op ≠ 0x0#4) (h7 : op.toNat < 7) :
    opField w ≠ op := by
  rintro rfl
  exact h.elim h0 (not_le.2 h7)

theorem decode_of_reservedOpcode (h : reservedOpcodeWord w) : decode w = .error .reservedOpcode := by
  simp [decode, opField_ne_of_reservedOpcode h]

end Opcode

/-! ## The fields of an instruction's word (R92 to R95) -/

/-- The word's must-be-zero bits for the instruction's form are 0, and its fields hold the instruction's operands. -/
def fieldsHold (w : Command) : Instr → Prop
  | .init => w.extractLsb' 0 60 = 0#60
  | .setfb base => w.extractLsb' 32 28 = 0#28 ∧ baseField w = base
  | .xlate x1 y1 => w.extractLsb' 24 36 = 0#36 ∧ x1Field w = x1 ∧ y1Field w = y1
  | .emask x1 x2 => (w.extractLsb' 36 24 = 0#24 ∧ y1Field w = 0#12) ∧ x1Field w = x1 ∧ x2Field w = x2
  | .colwr role color mask offset => (w.extractLsb' 54 6 = 0#6 ∧ w.extractLsb' 32 16 = 0#16) ∧
      roleField w = role.bits ∧ colorField w = color ∧ maskField w = mask ∧ offsetField w = offset
  | .drawbox x1 y1 x2 y2 color => w.extractLsb' 52 8 = 0#8 ∧
      x1Field w = x1 ∧ y1Field w = y1 ∧ x2Field w = x2 ∧ y2Field w = y2 ∧ colorField w = color

section Checked
variable {c : Prop} [Decidable c] {d : Except Reject Instr} {r : Reject}

theorem checked_eq_ok_iff {i : Instr} : (if c then d else .error r) = .ok i ↔ c ∧ d = .ok i := by
  split <;> simp [*]

theorem checked_eq_error_iff {e : Reject} :
    (if c then d else .error r) = .error e ↔ (c ∧ d = .error e) ∨ (¬ c ∧ r = e) := by
  split <;> simp [*]

theorem roleChecked_eq_error_iff {b : BitVec 2} {f : Role → Instr} {e : Reject} :
    (Role.ofBits b).elim (.error r) (fun role => .ok (f role)) = (.error e : Except Reject Instr) ↔
      b = 3#2 ∧ r = e := by
  rw [← role_ofBits_eq_none_iff]
  cases Role.ofBits b <;> simp

end Checked

/-- The decoder answers an instruction exactly on the words whose opcode and fields are its own. -/
theorem decode_eq_ok_iff {w : Command} {i : Instr} :
    decode w = .ok i ↔ opField w = i.opcode ∧ fieldsHold w i := by
  have hfields (hop : opField w = i.opcode) : decode w = .ok i ↔ fieldsHold w i := by
    cases i with
    | init => simp [decode_of_init hop, fieldsHold]
    | setfb => simp [decode_of_setfb hop, checked_eq_ok_iff, fieldsHold]
    | xlate => simp [decode_of_xlate hop, checked_eq_ok_iff, fieldsHold]
    | emask => simp [decode_of_emask hop, checked_eq_ok_iff, fieldsHold]
    | colwr =>
      rw [decode_of_colwr hop, checked_eq_ok_iff, fieldsHold, ← role_ofBits_eq_some_iff]
      cases Role.ofBits (roleField w) <;> simp
    | drawbox => simp [decode_of_drawbox hop, checked_eq_ok_iff, fieldsHold]
  exact ⟨fun h => ⟨decode_opcode h, (hfields (decode_opcode h)).1 h⟩, fun ⟨hop, h⟩ => (hfields hop).2 h⟩

/-- The encoder gives a word exactly to the instruction whose opcode and fields are the word's. -/
theorem encode_eq_iff {w : Command} {i : Instr} :
    encode i = w ↔ opField w = i.opcode ∧ fieldsHold w i := by
  have := w.isLt
  rw [← BitVec.toNat_inj]
  cases i with
  | init =>
    simp only [encode, toNat_append_add, opField, Instr.opcode, fieldsHold, extract_eq_iff, BitVec.toNat_ofNat]
    omega
  | setfb base =>
    have := base.isLt
    simp only [encode, toNat_append_add, opField, Instr.opcode, fieldsHold, baseField, extract_eq_iff,
      BitVec.toNat_ofNat]
    omega
  | xlate x1 y1 =>
    have := x1.isLt
    have := y1.isLt
    simp only [encode, toNat_append_add, opField, Instr.opcode, fieldsHold, x1Field, y1Field, extract_eq_iff,
      BitVec.toNat_ofNat]
    omega
  | emask x1 x2 =>
    have := x1.isLt
    have := x2.isLt
    simp only [encode, toNat_append_add, opField, Instr.opcode, fieldsHold, x1Field, x2Field, y1Field,
      extract_eq_iff, BitVec.toNat_ofNat]
    omega
  | colwr role color mask offset =>
    have := role.bits.isLt
    have := color.isLt
    have := mask.isLt
    have := offset.isLt
    simp only [encode, toNat_append_add, opField, Instr.opcode, fieldsHold, roleField, colorField, maskField,
      offsetField, extract_eq_iff, BitVec.toNat_ofNat]
    omega
  | drawbox x1 y1 x2 y2 color =>
    have := x1.isLt
    have := y1.isLt
    have := x2.isLt
    have := y2.isLt
    have := color.isLt
    simp only [encode, toNat_append_add, opField, Instr.opcode, fieldsHold, x1Field, y1Field, x2Field, y2Field,
      colorField, extract_eq_iff, BitVec.toNat_ofNat]
    omega

/-! ## The round trips and the operands (R92 to R96, R98, R99, R102) -/

/-- Settles O1: the opcode and fields of the word are the instruction's, and those are what the decoder reads. -/
theorem decodeOfEncodeIsIdentity : Obligations.DecodeOfEncodeIsIdentity :=
  fun _ => decode_eq_ok_iff.2 (encode_eq_iff.1 rfl)

/-- Settles O2: the converse, through the same opcode and fields. -/
theorem encodeOfDecodeIsIdentity : Obligations.EncodeOfDecodeIsIdentity :=
  fun _ _ h => encode_eq_iff.2 (decode_eq_ok_iff.1 h)

/-- A field at the low end of a word is a remainder. -/
theorem toNat_extract_zero {n : Nat} (x : BitVec n) (len : Nat) : (x.extractLsb' 0 len).toNat = x.toNat % 2 ^ len := by
  rw [toNat_extract, pow_zero, Nat.div_one]

/-- Settles O5: each operand is its field, and a field is a quotient and remainder of the word. -/
theorem operandsAreTheirFields : Obligations.OperandsAreTheirFields := by
  intro w
  refine ⟨fun base h => ?_, fun x y h => ?_, fun x1 x2 h => ?_, fun role c m off h => ?_,
    fun x1 y1 x2 y2 c h => ?_⟩
  · obtain ⟨-, -, rfl⟩ := decode_eq_ok_iff.1 h
    exact toNat_extract_zero w 32
  · obtain ⟨-, -, rfl, rfl⟩ := decode_eq_ok_iff.1 h
    exact ⟨toNat_extract_zero w 12, toNat_extract w 12 12⟩
  · obtain ⟨-, -, rfl, rfl⟩ := decode_eq_ok_iff.1 h
    exact ⟨toNat_extract_zero w 12, toNat_extract w 24 12⟩
  · obtain ⟨-, -, hrole, rfl, rfl, rfl⟩ := decode_eq_ok_iff.1 h
    rw [← hrole]
    exact ⟨toNat_extract w 52 2, toNat_extract w 48 4, toNat_extract w 16 16, toNat_extract_zero w 16⟩
  · obtain ⟨-, -, rfl, rfl, rfl, rfl, rfl⟩ := decode_eq_ok_iff.1 h
    exact ⟨toNat_extract_zero w 12, toNat_extract w 12 12, toNat_extract w 24 12, toNat_extract w 36 12,
      toNat_extract w 48 4⟩

/-! ## The match and mask table (R98) -/

/-- A masked comparison, cut in two: each part compares its own bits. -/
theorem and_append_eq_append_iff {n m : Nat} {w : BitVec (n + m)} {hi p : BitVec n} {lo q : BitVec m} :
    w &&& (hi ++ lo) = p ++ q ↔ w.extractLsb' m n &&& hi = p ∧ w.extractLsb' 0 m &&& lo = q := by
  conv_lhs => rw [← w.extractLsb'_append_extractLsb', BitVec.and_append]
  refine ⟨fun h => ⟨?_, ?_⟩, fun ⟨h, h'⟩ => by rw [h, h']⟩
  · simpa only [BitVec.extractLsb'_append_eq_left] using congrArg (BitVec.extractLsb' m n) h
  · simpa only [BitVec.extractLsb'_append_eq_right] using congrArg (BitVec.extractLsb' 0 m) h

/-! What each row of the table compares: the opcode and the must-be-zero bits of its form, the mask cut into its runs of
ones and zeros. -/

section Rows
variable (w : Command)

theorem matches_init_iff : w &&& 0xFFFFFFFFFFFFFFFF#64 = 0x1000000000000000#64 ↔
    opField w = 0x1#4 ∧ w.extractLsb' 0 60 = 0#60 := by
  refine (and_append_eq_append_iff (hi := BitVec.allOnes 4) (lo := BitVec.allOnes 60) (p := 0x1#4)
    (q := 0#60)).trans ?_
  rw [BitVec.and_allOnes, BitVec.and_allOnes, opField]

theorem matches_setfb_iff : w &&& 0xFFFFFFFF00000000#64 = 0x2000000000000000#64 ↔
    opField w = 0x2#4 ∧ w.extractLsb' 32 28 = 0#28 := by
  refine (and_append_eq_append_iff (hi := BitVec.allOnes 4) (lo := BitVec.allOnes 28 ++ 0#32) (p := 0x2#4)
    (q := 0#28 ++ 0#32)).trans ?_
  simp only [and_append_eq_append_iff, BitVec.and_allOnes, BitVec.and_zero, and_true, opField, extract_eq_iff,
    toNat_extract]
  omega

theorem matches_xlate_iff : w &&& 0xFFFFFFFFFF000000#64 = 0x3000000000000000#64 ↔
    opField w = 0x3#4 ∧ w.extractLsb' 24 36 = 0#36 := by
  refine (and_append_eq_append_iff (hi := BitVec.allOnes 4) (lo := BitVec.allOnes 36 ++ 0#24) (p := 0x3#4)
    (q := 0#36 ++ 0#24)).trans ?_
  simp only [and_append_eq_append_iff, BitVec.and_allOnes, BitVec.and_zero, and_true, opField, extract_eq_iff,
    toNat_extract]
  omega

theorem matches_emask_iff : w &&& 0xFFFFFFF000FFF000#64 = 0x4000000000000000#64 ↔
    opField w = 0x4#4 ∧ w.extractLsb' 36 24 = 0#24 ∧ y1Field w = 0#12 := by
  refine (and_append_eq_append_iff (hi := BitVec.allOnes 4)
    (lo := BitVec.allOnes 24 ++ (0#12 ++ (BitVec.allOnes 12 ++ 0#12))) (p := 0x4#4)
    (q := 0#24 ++ (0#12 ++ (0#12 ++ 0#12)))).trans ?_
  simp only [and_append_eq_append_iff, BitVec.and_allOnes, BitVec.and_zero, and_true, true_and, opField, y1Field,
    extract_eq_iff, toNat_extract]
  omega

theorem matches_colwr_iff : w &&& 0xFFC0FFFF00000000#64 = 0x5000000000000000#64 ↔
    opField w = 0x5#4 ∧ w.extractLsb' 54 6 = 0#6 ∧ w.extractLsb' 32 16 = 0#16 := by
  refine (and_append_eq_append_iff (hi := BitVec.allOnes 4)
    (lo := BitVec.allOnes 6 ++ (0#6 ++ (BitVec.allOnes 16 ++ 0#32))) (p := 0x5#4)
    (q := 0#6 ++ (0#6 ++ (0#16 ++ 0#32)))).trans ?_
  simp only [and_append_eq_append_iff, BitVec.and_allOnes, BitVec.and_zero, and_true, true_and, opField,
    extract_eq_iff, toNat_extract]
  omega

theorem matches_drawbox_iff : w &&& 0xFFF0000000000000#64 = 0x6000000000000000#64 ↔
    opField w = 0x6#4 ∧ w.extractLsb' 52 8 = 0#8 := by
  refine (and_append_eq_append_iff (hi := BitVec.allOnes 4) (lo := BitVec.allOnes 8 ++ 0#52) (p := 0x6#4)
    (q := 0#8 ++ 0#52)).trans ?_
  simp only [and_append_eq_append_iff, BitVec.and_allOnes, BitVec.and_zero, and_true, opField, extract_eq_iff,
    toNat_extract]
  omega

end Rows

/-- Every ROLE encoding but 3 is a role's (R95, R100). -/
theorem exists_role_bits_eq_iff (b : BitVec 2) : (∃ r : Role, b = r.bits) ↔ b ≠ 3#2 := by
  simp only [← role_ofBits_eq_some_iff, ← Option.isSome_iff_exists, ← Option.ne_none_iff_isSome, ne_eq,
    role_ofBits_eq_none_iff]

/-- An instruction is one of the six commands with some operands. -/
theorem exists_instr_iff {P : Instr → Prop} : (∃ i, P i) ↔ P .init ∨ (∃ base, P (.setfb base)) ∨
    (∃ x1 y1, P (.xlate x1 y1)) ∨ (∃ x1 x2, P (.emask x1 x2)) ∨
    (∃ role color mask offset, P (.colwr role color mask offset)) ∨
    ∃ x1 y1 x2 y2 color, P (.drawbox x1 y1 x2 y2 color) := by
  constructor
  · rintro ⟨_ | _ | _ | _ | _ | _, h⟩
    · exact .inl h
    · exact .inr (.inl ⟨_, h⟩)
    · exact .inr (.inr (.inl ⟨_, _, h⟩))
    · exact .inr (.inr (.inr (.inl ⟨_, _, h⟩)))
    · exact .inr (.inr (.inr (.inr (.inl ⟨_, _, _, _, h⟩))))
    · exact .inr (.inr (.inr (.inr (.inr ⟨_, _, _, _, _, h⟩))))
  · rintro (h | ⟨_, h⟩ | ⟨_, _, h⟩ | ⟨_, _, h⟩ | ⟨_, _, _, _, h⟩ | ⟨_, _, _, _, _, h⟩) <;> exact ⟨_, h⟩

/-- Settles O3: matching a row and decoding to its instruction both say that the opcode is the row's and its
must-be-zero bits are 0. -/
theorem decodeAgreesWithMatchMaskTable : Obligations.DecodeAgreesWithMatchMaskTable := by
  intro w row hrow
  simp only [opcodeTable, List.mem_cons, List.not_mem_nil, or_false] at hrow
  simp only [OpcodeRow.accepts, beq_iff_eq, decode_eq_ok_iff, exists_instr_iff, fieldsHold, Instr.opcode,
    Instr.mnemonic]
  obtain rfl | rfl | rfl | rfl | rfl | rfl := hrow
  · simp [matches_init_iff]
  · simp [matches_setfb_iff]
  · simp [matches_xlate_iff]
  · simp [matches_emask_iff]
  · simp [matches_colwr_iff, exists_role_bits_eq_iff, BitVec.extractLsb, roleField, and_assoc]
  · simp [matches_drawbox_iff]

/-! ## Words that are no command (R99, R100, R213) -/

/-- Settles O4: under each opcode the decoder's one check is that the must-be-zero bits of its row are 0, and under
COLWR's the role is read after it. -/
theorem illegalWordsAreRejectedByName : Obligations.IllegalWordsAreRejectedByName := by
  intro w
  simp only [setsMustBeZero, reservedRoleWord, BitVec.extractLsb]
  obtain h | h | h | h | h | h | h := opcode_cases w
  · simp [decode_of_init h, checked_eq_error_iff, reservedOpcodeWord, h]
  · simp [decode_of_setfb h, checked_eq_error_iff, reservedOpcodeWord, h]
  · simp [decode_of_xlate h, checked_eq_error_iff, reservedOpcodeWord, h]
  · simp only [decode_of_emask h, checked_eq_error_iff]
    simp [reservedOpcodeWord, h, y1Field, imp_iff_not_or]
  · simp only [decode_of_colwr h, checked_eq_error_iff, roleChecked_eq_error_iff]
    simp [reservedOpcodeWord, h, roleField, imp_iff_not_or, and_comm, or_comm]
  · simp [decode_of_drawbox h, checked_eq_error_iff, reservedOpcodeWord, h]
  · simp [decode_of_reservedOpcode h, h, opField_ne_of_reservedOpcode h]

theorem decode_of_illegalWord {w : Command} (h : illegalWord w) : ∃ e, decode w = .error e := by
  obtain ⟨hop, hmbz, hrole⟩ := illegalWordsAreRejectedByName w
  by_cases hz : setsMustBeZero w
  · exact ⟨_, hmbz.2 hz⟩
  · obtain h | h | h := h
    · exact ⟨_, hop.2 h⟩
    · exact absurd h hz
    · exact ⟨_, hrole.2 ⟨h, hz⟩⟩

/-- Settles O9: an idle engine takes the word, and the run of a word that does not decode is the raised error. -/
theorem illegalWordHasNoOtherEffect : Obligations.IllegalWordHasNoOtherEffect := by
  intro s w rest hidle hin hw
  obtain ⟨e, hd⟩ := decode_of_illegalWord hw
  calc step s = runWord w s.dropInput := (step_of_inputs hin).trans (whenIdle_of_idle hidle _)
    _ = .next (s.dropInput.finish (opField w) .illegalCommand) := by simp only [runWord, hd, raiseError_eq_finish]
    _ = _ := by rw [dropInput_of_inputs hin, finish_eq_failedWith _ _ (by decide)]

/-! ## The assembler (R103) -/

theorem fitsField_eq_false_iff {n v : Nat} : fitsField n v = false ↔ 2 ^ n ≤ v := by simp [fitsField]

theorem toNat_ofNat_of_fits {n v : Nat} (h : fitsField n v = true) : (BitVec.ofNat n v).toNat = v :=
  BitVec.toNat_ofNat v n ▸ Nat.mod_eq_of_lt (of_decide_eq_true h)

theorem assemble_eq_none_iff {l : AsmLine} : l.assemble = none ↔ l.wellFormed = false := by
  simp [AsmLine.assemble]

/-- A line that assembles is well formed, and its word is the one its kind gives. -/
theorem eq_of_assemble {l : AsmLine} {w w' : Command} (h : l.assemble = some w)
    (hl : l.wellFormed = true → l.assemble = some w') : l.wellFormed = true ∧ w' = w := by
  have hwf : l.wellFormed = true := by
    by_contra hn
    rw [assemble_eq_none_iff.2 (eq_false_of_ne_true hn)] at h
    cases h
  exact ⟨hwf, Option.some_inj.1 ((hl hwf).symm.trans h)⟩

theorem decode_of_assemble {l : AsmLine} {i : Instr} {w : Command} (h : l.assemble = some w)
    (hl : l.wellFormed = true → l.assemble = some (encode i)) : l.wellFormed = true ∧ decode w = .ok i := by
  obtain ⟨hwf, rfl⟩ := eq_of_assemble h hl
  exact ⟨hwf, decodeOfEncodeIsIdentity i⟩

/-- Settles O7: a line is an error exactly when it is not well formed; otherwise its word is an instruction's encoding,
and an operand that fits its field is unchanged there. -/
theorem assembledLineDecodesToItsOperands : Obligations.AssembledLineDecodesToItsOperands := by
  unfold Obligations.AssembledLineDecodesToItsOperands
  simp only [assemble_eq_none_iff, AsmLine.wellFormed, Bool.and_eq_false_iff, fitsField_eq_false_iff, or_assoc,
    true_and]
  refine ⟨⟨_, rfl, decodeOfEncodeIsIdentity .init⟩, fun base w h => ?_, fun x y w h => ?_, fun x1 x2 w h => ?_,
    fun off m c w h => ?_, fun off m c w h => ?_, fun off c w h => ?_, fun x1 y1 x2 y2 c w h => ?_, fun v w h => ?_⟩
  · obtain ⟨hwf, hd⟩ := decode_of_assemble h fun hwf => if_pos hwf
    exact ⟨_, hd, toNat_ofNat_of_fits hwf⟩
  · obtain ⟨hwf, hd⟩ := decode_of_assemble h fun hwf => if_pos hwf
    simp only [AsmLine.wellFormed, Bool.and_eq_true] at hwf
    obtain ⟨hx, hy⟩ := hwf
    exact ⟨_, _, hd, toNat_ofNat_of_fits hx, toNat_ofNat_of_fits hy⟩
  · obtain ⟨hwf, hd⟩ := decode_of_assemble h fun hwf => if_pos hwf
    simp only [AsmLine.wellFormed, Bool.and_eq_true] at hwf
    obtain ⟨hx1, hx2⟩ := hwf
    exact ⟨_, _, hd, toNat_ofNat_of_fits hx1, toNat_ofNat_of_fits hx2⟩
  · obtain ⟨hwf, hd⟩ := decode_of_assemble h fun hwf => if_pos hwf
    simp only [AsmLine.wellFormed, Bool.and_eq_true] at hwf
    obtain ⟨⟨ho, hm⟩, hc⟩ := hwf
    exact ⟨_, _, _, hd, toNat_ofNat_of_fits hc, toNat_ofNat_of_fits hm, toNat_ofNat_of_fits ho⟩
  · obtain ⟨hwf, hd⟩ := decode_of_assemble h fun hwf => if_pos hwf
    simp only [AsmLine.wellFormed, Bool.and_eq_true] at hwf
    obtain ⟨⟨ho, hm⟩, hc⟩ := hwf
    exact ⟨_, _, _, hd, toNat_ofNat_of_fits hc, toNat_ofNat_of_fits hm, toNat_ofNat_of_fits ho⟩
  · obtain ⟨hwf, hd⟩ := decode_of_assemble h fun hwf => if_pos hwf
    simp only [AsmLine.wellFormed, Bool.and_eq_true] at hwf
    obtain ⟨ho, hc⟩ := hwf
    exact ⟨_, _, hd, toNat_ofNat_of_fits hc, toNat_ofNat_of_fits ho⟩
  · obtain ⟨hwf, hd⟩ := decode_of_assemble h fun hwf => if_pos hwf
    simp only [AsmLine.wellFormed, Bool.and_eq_true] at hwf
    obtain ⟨⟨⟨⟨hx1, hy1⟩, hx2⟩, hy2⟩, hc⟩ := hwf
    exact ⟨_, _, _, _, _, hd, toNat_ofNat_of_fits hx1, toNat_ofNat_of_fits hy1,
      toNat_ofNat_of_fits hx2, toNat_ofNat_of_fits hy2, toNat_ofNat_of_fits hc⟩
  · obtain ⟨hwf, rfl⟩ := eq_of_assemble h fun hwf => if_pos hwf
    exact toNat_ofNat_of_fits hwf

end Sys2Proof.Proofs
end

section
/-! PROOFS. The coordinate translator (40_translator.md): INIT and XLATE, each from what its rule says, one equation per
outcome; before them, what a word does whose opcode leaves one check of its bits to the decoder. -/

namespace Sys2Proof.Proofs

open Sys2Proof.Machine Sys2Proof.Laws

/-! ## A word that decodes when a check of its bits holds (R99, R213) -/

section CheckedWord
variable {w : Command} {s : State} {c : Prop} [Decidable c] {i : Instr} {r : Reject}

theorem runWord_of_checked {op : Opcode} (hop : opField w = op)
    (h : decode w = if c then .ok i else .error r) :
    runWord w s = if c then exec i s else .next (s.failedWith op .illegalCommand) := by
  subst hop
  unfold runWord
  rw [h]
  split_ifs with hc
  · rfl
  · exact congrArg _ (finish_eq_failedWith _ _ (by decide))

theorem commandAccesses_of_checked (h : decode w = if c then .ok i else .error r)
    (hi : (verdictOf i s).accesses = []) : commandAccesses w s = [] := by
  unfold commandAccesses wordVerdict
  rw [h]
  split_ifs with hc
  · exact hi
  · rfl

end CheckedWord

/-! ## INIT (R120, R121) -/

/-- The state after INIT: the tables built, INIT_DONE set, the command completed. -/
theorem exec_init (s : State) : exec .init s = .next
    ({ s with colTable := builtColTable, rowTable := builtRowTable, initDone := true }.doneWith 0x1#4) :=
  exec_of_register (i := .init) (eff := .tables) rfl

/-- INIT's one word: its opcode, and every other bit 0. -/
theorem eq_init_word_iff {w : Command} (h : opField w = 0x1#4) :
    w = 0x1000000000000000#64 ↔ w.extractLsb' 0 60 = 0#60 := by
  have hw : encode .init = w ↔ opField w = 0x1#4 ∧ w.extractLsb' 0 60 = 0#60 := encode_eq_iff
  rw [and_iff_right h, eq_comm] at hw
  exact hw

/-- Settles O17: the state `exec_init` names, entry by entry of the built tables, and the one word of the opcode. -/
theorem initFollowsItsRule : Obligations.InitFollowsItsRule := by
  refine ⟨fun s => ⟨_, exec_init s, fun c j slot hslot => ⟨?_, ?_⟩, builtRowTable_entry, rfl⟩, fun s w hop => ?_⟩
  · refine (builtColTable_byteOffset slot).trans ?_
    omega
  · refine (builtColTable_bitColumn slot).trans ?_
    omega
  · simp only [eq_init_word_iff hop]
    exact ⟨commandAccesses_of_checked (decode_of_init hop) rfl, runWord_of_checked hop (decode_of_init hop)⟩

/-- Settles O18: what INIT writes does not depend on what was there before. -/
theorem secondInitChangesNothing : Obligations.SecondInitChangesNothing :=
  fun s => ⟨_, exec_init s, exec_init _⟩

/-! ## XLATE (R122, R123) -/

/-- `RES0` after XLATE as a number (R36). -/
theorem packAddress_eq_ofNat (a : PixelAddress) :
    packAddress a = BitVec.ofNat 32 (a.bitColumn.toNat * 2 ^ 16 + a.byteOffset.toNat) := by
  have := a.bitColumn.isLt
  have := a.byteOffset.isLt
  apply BitVec.eq_of_toNat_eq
  simp only [packAddress, toNat_append_add, BitVec.toNat_ofNat]
  omega

theorem translatePixel_byteOffset (s : State) (x : Fin 320) (y : Fin 200) :
    (translatePixel s x y).byteOffset.toNat = columnOffset s x y % 2 ^ 15 := BitVec.toNat_ofNat _ _

section Xlate
variable {s : State} {x y : Coord}

theorem checkXlate_notInitialised (h : s.initDone = false) : checkXlate x y s = .raise .notInitialised := if_pos h

theorem checkXlate_outOfRange (h : s.initDone = true) (hxy : 320 ≤ x.toNat ∨ 200 ≤ y.toNat) :
    checkXlate x y s = .raise .outOfRange := by
  obtain hx | hy := hxy
  · simp [checkXlate, h, pixelX_none.2 hx]
  · simp [checkXlate, h, pixelY_none.2 hy]

theorem checkXlate_pixel {px : Fin 320} {py : Fin 200} (h : s.initDone = true) (hx : x.toNat = px.val)
    (hy : y.toNat = py.val) : checkXlate x y s = .proceed [] (.result (packAddress (translatePixel s px py))) := by
  simp [checkXlate, h, pixelX_some.2 hx, pixelY_some.2 hy]

/-- XLATE checks and computes, and never reaches memory (R123). -/
theorem checkXlate_accesses : (checkXlate x y s).accesses = [] := by
  unfold checkXlate
  repeat' split
  all_goals rfl

/-- XLATE of a pixel: the bit column and the offset of its column, in `RES0`. -/
theorem exec_xlate_pixel {px : Fin 320} {py : Fin 200} (h : s.initDone = true) (hx : x.toNat = px.val)
    (hy : y.toNat = py.val) : exec (.xlate x y) s = .next ({ s with
      res0 := BitVec.ofNat 32 ((s.colTable[px]).bitColumn.toNat * 2 ^ 16 + columnOffset s px py % 2 ^ 15)
      }.doneWith 0x3#4) := by
  rw [exec_of_register (i := .xlate x y) (checkXlate_pixel h hx hy), packAddress_eq_ofNat, translatePixel_byteOffset]
  rfl

end Xlate

/-- Settles O20: the three outcomes of the rule's checks in their order, and the words of the opcode. -/
theorem xlateFollowsItsRule : Obligations.XlateFollowsItsRule := by
  refine ⟨fun s x y => ⟨fun h => ?_, fun h hxy => ?_, fun px py h hx hy => exec_xlate_pixel h hx hy⟩,
    fun s w hop => ⟨?_, ?_⟩⟩
  · exact exec_of_raise (checkXlate_notInitialised h) (by decide)
  · exact exec_of_raise (checkXlate_outOfRange h hxy) (by decide)
  · exact commandAccesses_of_checked (decode_of_xlate hop) checkXlate_accesses
  · exact runWord_of_checked hop (decode_of_xlate hop)

/-- Settles O21: the translation of a pixel, its table entries in closed form (R124); the offset fits 15 bits. -/
theorem xlateReturnsTheClosedForm : Obligations.XlateReturnsTheClosedForm := by
  intro s x y hinit hbuilt hx hy
  have hcol : (s.colTable[(⟨x.toNat, hx⟩ : Fin 320)]).bitColumn.toNat = x.toNat % 16 := by
    rw [hbuilt.1, builtColTable_bitColumn]
  have hoff : columnOffset s ⟨x.toNat, hx⟩ ⟨y.toNat, hy⟩ % 2 ^ 15 =
      y.toNat * 160 + (x.toNat - x.toNat % 16) / 16 * 8 := by
    rw [columnOffset_built hbuilt]
    dsimp only
    omega
  refine ⟨_, _, ?_, rfl, rfl, by omega, by omega, by omega⟩
  rw [exec_xlate_pixel hinit (px := ⟨x.toNat, hx⟩) (py := ⟨y.toNat, hy⟩) rfl rfl, hcol, hoff]

end Sys2Proof.Proofs
end

section
/-! PROOFS. The edge-mask generator (41_edge_masks.md): the pixels a mask covers, and EMASK from what its rule says, one
equation per outcome. -/

namespace Sys2Proof.Proofs

open Sys2Proof.Machine Sys2Proof.Laws

/-! ## The pixels a mask covers (R140 to R142, R145) -/

/-- The word both masks are shifted from has every pixel (R140, R141). -/
theorem allPixels_getLsbD (k : Nat) : (0xFFFF#16).getLsbD k = decide (k < 16) := BitVec.getLsbD_allOnes

/-- Pixel `j` is in `START[p]` from `p` on (R140). -/
theorem startMask_getLsbD (p j : Fin 16) : (startMask p).getLsbD (15 - j.val) = decide (p ≤ j) := by
  simp only [startMask, BitVec.getLsbD_ushiftRight, allPixels_getLsbD, decide_eq_decide, Fin.le_def]
  omega

/-- Pixel `j` is in `END[q]` up to `q` (R141). -/
theorem endMask_getLsbD (q j : Fin 16) : (endMask q).getLsbD (15 - j.val) = decide (j ≤ q) := by
  rw [Bool.eq_iff_iff]
  simp only [endMask, BitVec.getLsbD_shiftLeft, allPixels_getLsbD, Fin.le_def, Bool.and_eq_true,
    Bool.not_eq_true', decide_eq_true_eq, decide_eq_false_iff_not]
  omega

/-- A clear mask's inverse is the complement, pixel by pixel (R142). -/
theorem clearInverse_getLsbD (m : PlaneWord) (j : Fin 16) :
    (clearInverse m).getLsbD (15 - j.val) = !m.getLsbD (15 - j.val) := by
  have hj : 15 - j.val < 16 := by omega
  simp [clearInverse, hj]

/-- Settles O33: each mask pixel by pixel; an intersection and a complement are taken bit by bit. -/
theorem masksCoverTheirPixels : Obligations.MasksCoverTheirPixels := by
  intro p q j
  refine ⟨?_, ?_, ?_, ?_, clearInverse_getLsbD _ j⟩
  · simp [startMask_getLsbD]
  · simp [endMask_getLsbD]
  · simp [startMask_getLsbD, endMask_getLsbD]
  · simp [clearInverse_getLsbD, startMask_getLsbD]

/-! ## EMASK (R143, R144) -/

/-- A result register of a mask as a number (R36). -/
theorem packMasks_eq_ofNat (m : PlaneWord) :
    packMasks m = BitVec.ofNat 32 ((0xFFFF - m.toNat) * 2 ^ 16 + m.toNat) := by
  have := m.isLt
  apply BitVec.eq_of_toNat_eq
  simp only [packMasks, clearInverse, toNat_append_add, BitVec.toNat_not, BitVec.toNat_ofNat]
  omega

/-- `RES3` as a number (R36); the fields of columns and pixels are wide enough for them. -/
theorem packSpan_eq_ofNat {e : EdgeMasks} (hwc : e.wc < 32) : packSpan e = BitVec.ofNat 32
    (e.ec.val * 2 ^ 24 + e.sc.val * 2 ^ 16 + e.ep.val * 2 ^ 12 + e.sp.val * 2 ^ 8 + e.wc) := by
  have := e.ec.isLt
  have := e.sc.isLt
  have := e.ep.isLt
  have := e.sp.isLt
  apply BitVec.eq_of_toNat_eq
  simp only [packSpan, toNat_append_add, BitVec.toNat_ofNat]
  omega

theorem edgeMasks_wc_lt (x1 x2 : Fin 320) : (edgeMasks x1 x2).wc < 32 := by
  rw [edgeMasks_wc]
  omega

section Emask
variable {s : State} {x1 x2 : Coord}

theorem checkEmask_outOfRange (h : 320 ≤ x1.toNat ∨ 320 ≤ x2.toNat) : checkEmask x1 x2 = .raise .outOfRange := by
  obtain h1 | h2 := h
  · simp [checkEmask, pixelX_none.2 h1]
  · simp [checkEmask, pixelX_none.2 h2]

variable {p1 p2 : Fin 320}

theorem checkEmask_reversed (h1 : x1.toNat = p1.val) (h2 : x2.toNat = p2.val) (h : p2 < p1) :
    checkEmask x1 x2 = .raise .invalidGeometry := by
  simp [checkEmask, pixelX_some.2 h1, pixelX_some.2 h2, h]

theorem checkEmask_span (h1 : x1.toNat = p1.val) (h2 : x2.toNat = p2.val) (h : p1 ≤ p2) :
    checkEmask x1 x2 = .proceed [] (.results (packMasks (edgeMasks p1 p2).sm) (packMasks (edgeMasks p1 p2).em)
      (packMasks (edgeMasks p1 p2).cm) (packSpan (edgeMasks p1 p2))) := by
  simp [checkEmask, pixelX_some.2 h1, pixelX_some.2 h2, not_lt.2 h]

/-- EMASK checks and computes, and never reaches memory (R144). -/
theorem checkEmask_accesses : (checkEmask x1 x2).accesses = [] := by
  unfold checkEmask
  repeat' split
  all_goals rfl

/-- EMASK of a span: its three masks, each with its complement, and its columns, in `RES0` to `RES3`. -/
theorem exec_emask_span (h1 : x1.toNat = p1.val) (h2 : x2.toNat = p2.val) (h : p1 ≤ p2) :
    exec (.emask x1 x2) s = .next ({ s with
      res0 := packMasks (edgeMasks p1 p2).sm
      res1 := packMasks (edgeMasks p1 p2).em
      res2 := packMasks (edgeMasks p1 p2).cm
      res3 := packSpan (edgeMasks p1 p2) }.doneWith 0x4#4) :=
  exec_of_register (i := .emask x1 x2) (checkEmask_span h1 h2 h)

end Emask

/-- Settles O22: the three outcomes of the rule's checks in their order, and the words of the opcode. -/
theorem emaskFollowsItsRule : Obligations.EmaskFollowsItsRule := by
  refine ⟨fun s x1 x2 => ⟨fun h => ?_, fun h1 h2 h => ?_, fun h h2 sm em cm hsm hem hcm => ?_⟩,
    fun s w hop => ⟨?_, ?_⟩⟩
  · exact exec_of_raise (checkEmask_outOfRange h) (by decide)
  · exact exec_of_raise (checkEmask_reversed (p1 := ⟨x1.toNat, h1⟩) (p2 := ⟨x2.toNat, h2⟩) rfl rfl h) (by decide)
  · subst hcm hsm hem
    rw [exec_emask_span (p1 := ⟨x1.toNat, h.trans_lt h2⟩) (p2 := ⟨x2.toNat, h2⟩) rfl rfl h]
    simp only [packMasks_eq_ofNat, packSpan_eq_ofNat (edgeMasks_wc_lt _ _)]
    rfl
  · exact commandAccesses_of_checked (decode_of_emask hop) checkEmask_accesses
  · exact runWord_of_checked hop (decode_of_emask hop)

end Sys2Proof.Proofs
end

section
/-! PROOFS. The column writer (42_column_writer.md): the composition of a plane word bit by bit, what a sequence of
column writes makes of pixels and bytes, and from that COLWR, and DRAWBOX by the columns it writes. -/

namespace Sys2Proof.Proofs

open Sys2Proof.Machine Sys2Proof.Laws

/-! ## Patterns and composition, bit by bit (R160 to R163, R167) -/

/-- Every bit of a pattern's plane is the colour's bit of that plane (R160). -/
theorem planePattern_getLsbD (c : Color) (i : Fin 4) (b : Fin 16) :
    (planePattern c i).getLsbD b.val = c.getLsbD i.val := by
  unfold planePattern
  split
  · next h => rw [allPixels_getLsbD, h, decide_eq_true b.isLt]
  · next h => rw [BitVec.getLsbD_zero, Bool.eq_false_iff.2 h]

/-- Settles O34: a bit of the index is a remainder of its number. -/
theorem planePatternBroadcastsTheColorBit : Obligations.PlanePatternBroadcastsTheColorBit := by
  intro c i
  have hbit := getLsbD_eq_iff c i.val true
  simp only [planePattern, hbit, Bool.toNat_true]

section Formulas
variable (p m c : PlaneWord) (b : Fin 16)

/-- A masked write takes the bits inside the mask from the pattern (R162). -/
theorem maskedWrite_getLsbD : ((p &&& ~~~m) ||| (c &&& m)).getLsbD b.val =
    if m.getLsbD b.val then c.getLsbD b.val else p.getLsbD b.val := by
  simp only [BitVec.getLsbD_or, BitVec.getLsbD_and, BitVec.getLsbD_not, b.isLt, decide_true, Bool.true_and]
  cases m.getLsbD b.val <;> simp

/-- The literal formula with an AND clears bits outside the mask and leaves those inside it (R163). -/
theorem literalAnd_getLsbD : (p &&& ~~~(clearInverse m &&& ~~~c)).getLsbD b.val =
    if m.getLsbD b.val then p.getLsbD b.val else p.getLsbD b.val && c.getLsbD b.val := by
  simp only [clearInverse, BitVec.getLsbD_and, BitVec.getLsbD_not, b.isLt, decide_true, Bool.true_and]
  cases m.getLsbD b.val <;> simp

/-- The literal formula with an OR sets bits inside the mask and leaves those outside it (R163). -/
theorem literalOr_getLsbD : (p ||| (m &&& c)).getLsbD b.val =
    if m.getLsbD b.val then p.getLsbD b.val || c.getLsbD b.val else p.getLsbD b.val := by
  simp only [BitVec.getLsbD_or, BitVec.getLsbD_and]
  cases m.getLsbD b.val <;> simp

/-- The literal formula of the single column is the AND formula, with the OR formula's bits set in it (R163). -/
theorem literalSingle_getLsbD : ((p &&& ~~~(clearInverse m &&& ~~~c)) ||| (m &&& c)).getLsbD b.val =
    if m.getLsbD b.val then p.getLsbD b.val || c.getLsbD b.val else p.getLsbD b.val && c.getLsbD b.val := by
  rw [literalOr_getLsbD, literalAnd_getLsbD]
  split_ifs <;> rfl

end Formulas

/-- Settles O35: the formula of each role and mode, by its bits above. -/
theorem compositionPerBit : Obligations.CompositionPerBit := by
  rintro role i p m c b q k inside rfl rfl rfl
  cases role with
  | full => exact ⟨rfl, rfl⟩
  | single => exact ⟨maskedWrite_getLsbD p m c b, literalSingle_getLsbD p m c b⟩
  | edge =>
    refine ⟨maskedWrite_getLsbD p m c b, ?_⟩
    dsimp only [compose, composeLiteral]
    by_cases hi : i.val < 2
    · rw [if_pos hi, if_pos hi, literalOr_getLsbD]
    · rw [if_neg hi, if_neg hi, literalAnd_getLsbD]

/-- Plane words are equal when their sixteen bits are. -/
theorem planeWord_ext {v w : PlaneWord} (h : ∀ b : Fin 16, v.getLsbD b.val = w.getLsbD b.val) : v = w :=
  BitVec.eq_of_getLsbD_eq fun k hk => h ⟨k, hk⟩

/-- The source's single-column formula with the set mask is the masked write, whatever the pattern (R167). -/
theorem setMaskFormula_eq_maskedWrite (p m c : PlaneWord) :
    (p &&& ~~~(m &&& ~~~c)) ||| (m &&& c) = (p &&& ~~~m) ||| (c &&& m) := by
  refine planeWord_ext fun b => ?_
  rw [maskedWrite_getLsbD]
  simp only [BitVec.getLsbD_or, BitVec.getLsbD_and, BitVec.getLsbD_not, b.isLt, decide_true, Bool.true_and]
  cases m.getLsbD b.val <;> simp

/-- For the pattern of all ones the OR formula is the masked write (R163, 90_conflicts.md C3). -/
theorem literalOr_ones_eq_maskedWrite (p m : PlaneWord) :
    p ||| (m &&& 0xFFFF#16) = (p &&& ~~~m) ||| (0xFFFF#16 &&& m) := by
  refine planeWord_ext fun b => ?_
  rw [literalOr_getLsbD, maskedWrite_getLsbD, allPixels_getLsbD, decide_eq_true b.isLt, Bool.or_true]

/-- For the pattern of all ones the AND formula changes nothing (R163). -/
theorem literalAnd_ones_eq (p m : PlaneWord) : p &&& ~~~(clearInverse m &&& ~~~0xFFFF#16) = p := by
  refine planeWord_ext fun b => ?_
  rw [literalAnd_getLsbD, allPixels_getLsbD, decide_eq_true b.isLt, Bool.and_true, ite_self]

/-- Settles O36: where the formulas differ, the word and the mask that show it are given. -/
theorem uniformPatternFormulas : Obligations.UniformPatternFormulas := by
  refine ⟨fun p m c _ => ⟨setMaskFormula_eq_maskedWrite p m c, fun role i hrole => ?_⟩, fun role i hrole => ?_,
    fun i hi => ?_, fun p m i => ⟨?_, fun hi => ?_⟩⟩
  · cases role with
    | full => exact absurd rfl hrole
    | _ => rfl
  · refine ⟨0xFFFF#16, 0xFFFF#16, ?_⟩
    cases role with
    | full => exact absurd rfl hrole
    | _ => revert i; decide
  · refine ⟨0x0000#16, 0xFFFF#16, ?_⟩
    revert i
    decide
  · dsimp only [compose, composeLiteral, composeMasked]
    rw [literalAnd_ones_eq, literalOr_ones_eq_maskedWrite]
  · dsimp only [compose, composeLiteral, composeMasked]
    rw [if_pos hi, literalOr_ones_eq_maskedWrite]

/-! ## What a sequence of column writes makes of memory (R164, R165, R185) -/

/-- The state after a command of opcode `op` whose only effect is column writes. -/
def afterColumns (s : State) (c : Color) (cols : List Column) (op : Opcode) : State :=
  (s.performAccesses (columnsAccesses s c cols)).doneWith op

/-- An instruction whose rule is column writes inside the framebuffer makes them and completes. -/
theorem exec_of_columns {i : Instr} {s : State} {c : Color} {cols : List Column}
    (h : verdictOf i s = .proceed (columnsAccesses s c cols) .none) (hs : s.surfaceOk)
    (hcols : ∀ col ∈ cols, col.off % 8 = 0 ∧ col.off ≤ 31992) :
    exec i s = .next (afterColumns s c cols i.opcode) :=
  exec_of_accesses h (columnsAccesses_port hs hcols)

theorem pixelBit_lt (x : Fin 320) : pixelBit x < 16 := by unfold pixelBit; omega

section AfterColumns
variable {s : State} {c : Color} {cols : List Column} {op : Opcode}

/-- Column writes change memory alone. -/
theorem afterColumns_eq_doneWith (s : State) (c : Color) (cols : List Column) (op : Opcode) :
    afterColumns s c cols op = { s with mem := (afterColumns s c cols op).mem }.doneWith op := by
  simp only [afterColumns, State.performAccesses, performAll_fresh]
  rfl

theorem afterColumns_byteAt {a : Nat}
    (h : ∀ col ∈ cols, a < s.fbBase.toNat + col.off ∨ s.fbBase.toNat + col.off + 8 ≤ a) :
    (afterColumns s c cols op).byteAt a = s.byteAt a :=
  columnsAccesses_byte s c cols s.port a h

/-- Columns of the framebuffer have no byte outside it (R60). -/
theorem afterColumns_byteAt_outside (hcols : ∀ col ∈ cols, col.off % 8 = 0 ∧ col.off ≤ 31992) {a : Nat}
    (ha : ¬ s.inSurface a) : (afterColumns s c cols op).byteAt a = s.byteAt a :=
  afterColumns_byteAt fun col hcol => by
    have := hcols col hcol
    unfold State.inSurface at ha
    omega

theorem afterColumns_wordAt (hapart : cols.Pairwise Column.apart) {col : Column} (hcol : col ∈ cols) (i : Fin 4) :
    (afterColumns s c cols op).wordAt (s.fbBase.toNat + col.off + 2 * i.val) =
      columnWord s.params.edgeMode col.role col.mask c i (s.wordAt (s.fbBase.toNat + col.off + 2 * i.val)) :=
  columnsAccesses_word s c cols s.port hapart col hcol i

/-- A pixel of a column that is written to: its plane word holds what the column write composes. -/
theorem afterColumns_pixelPlane (hapart : cols.Pairwise Column.apart) {col : Column} (hcol : col ∈ cols)
    {x : Fin 320} {y : Fin 200} (hoff : y.val * 160 + x.val / 16 * 8 = col.off) (i : Fin 4) :
    (afterColumns s c cols op).pixelPlane x y i =
      (columnWord s.params.edgeMode col.role col.mask c i (s.wordAt (planeAddr s x y i))).getLsbD (pixelBit x) := by
  have haddr : planeAddr s x y i = s.fbBase.toNat + col.off + 2 * i.val := by unfold planeAddr; omega
  rw [haddr, ← afterColumns_wordAt (op := op) hapart hcol, ← haddr]
  rfl

/-- A pixel of any other column keeps its plane bits. -/
theorem afterColumns_pixelPlane_other (hcols : ∀ col ∈ cols, col.off % 8 = 0 ∧ col.off ≤ 31992) {x : Fin 320}
    {y : Fin 200} (hoff : ∀ col ∈ cols, y.val * 160 + x.val / 16 * 8 ≠ col.off) (i : Fin 4) :
    (afterColumns s c cols op).pixelPlane x y i = s.pixelPlane x y i := by
  refine congrArg (fun w : PlaneWord => w.getLsbD (pixelBit x)) (performAll_word_untouched _ s.port _ fun a ha _ => ?_)
  obtain ⟨col, hcol, j, hj⟩ := columnsAccesses_addr ha
  have := hcols col hcol
  have := hoff col hcol
  unfold afterColumns planeAddr
  simp only [State.doneWith, performAccesses_fbBase]
  omega

/-- Under MASKED a pixel of a written column takes the colour in the role FULL or inside the mask, and else keeps its
plane bits (R162, R166). -/
theorem afterColumns_pixelPlane_masked (hmode : s.params.edgeMode = .masked) (hapart : cols.Pairwise Column.apart)
    {col : Column} (hcol : col ∈ cols) {x : Fin 320} {y : Fin 200}
    (hoff : y.val * 160 + x.val / 16 * 8 = col.off) (i : Fin 4) :
    (afterColumns s c cols op).pixelPlane x y i =
      if col.role = .full ∨ col.mask.getLsbD (pixelBit x) = true then c.getLsbD i.val else s.pixelPlane x y i := by
  obtain ⟨hmasked, -⟩ := compositionPerBit col.role i (s.wordAt (planeAddr s x y i)) col.mask (planePattern c i)
    ⟨pixelBit x, pixelBit_lt x⟩ _ _ _ rfl (planePattern_getLsbD c i _).symm rfl
  rw [afterColumns_pixelPlane hapart hcol hoff, columnWord, hmode, hmasked]
  cases col.role <;> simp [State.pixelPlane]

/-- Under LITERAL a pixel of a written column follows the per-bit table (R163). -/
theorem afterColumns_pixelPlane_literal (hmode : s.params.edgeMode = .literal) (hapart : cols.Pairwise Column.apart)
    {col : Column} (hcol : col ∈ cols) {x : Fin 320} {y : Fin 200}
    (hoff : y.val * 160 + x.val / 16 * 8 = col.off) (i : Fin 4) {q k inside : Bool} (hq : q = s.pixelPlane x y i)
    (hk : k = c.getLsbD i.val) (hinside : col.role ≠ .full → inside = col.mask.getLsbD (pixelBit x)) :
    (afterColumns s c cols op).pixelPlane x y i =
      match col.role with
      | .full => k
      | .single => if inside then q || k else q && k
      | .edge => if i.val < 2 then (if inside then q || k else q) else (if inside then q else q && k) := by
  obtain ⟨-, hliteral⟩ := compositionPerBit col.role i (s.wordAt (planeAddr s x y i)) col.mask (planePattern c i)
    ⟨pixelBit x, pixelBit_lt x⟩ q k _ hq (hk.trans (planePattern_getLsbD c i _).symm) rfl
  rw [afterColumns_pixelPlane hapart hcol hoff, columnWord, hmode, hliteral]
  cases hr : col.role with
  | full => rfl
  | _ => rw [hinside (by simp [hr])]

end AfterColumns

/-- A pixel has the colour whose bits its planes hold (R63). -/
theorem pixelColor_eq {s : State} {x : Fin 320} {y : Fin 200} {c : Color}
    (h : ∀ i : Fin 4, s.pixelPlane x y i = c.getLsbD i.val) : s.pixelColor x y = c := by
  unfold State.pixelColor
  rw [h 0, h 1, h 2, h 3]
  clear h
  revert c
  decide

/-! ## COLWR (R164 to R166) -/

section Colwr
variable {s : State} {role : Role} {c : Color} {m : PlaneWord} {off : BitVec 16}

theorem checkColwr_badSurface (h : s.fbValid = false) : checkColwr role c m off s = .raise .badSurface := if_pos h

theorem checkColwr_outOfRange (h : s.fbValid = true) (hoff : off.toNat % 8 ≠ 0 ∨ 31992 < off.toNat) :
    checkColwr role c m off s = .raise .outOfRange := by
  have : columnStart off = false := by simp only [columnStart, decide_eq_false_iff_not]; omega
  simp [checkColwr, h, this]

/-- A COLWR that passes its checks writes its one column. -/
theorem checkColwr_column (h : s.fbValid = true) (h8 : off.toNat % 8 = 0) (hlast : off.toNat ≤ 31992) :
    checkColwr role c m off s = .proceed (columnsAccesses s c [⟨off.toNat, m, role⟩]) .none := by
  simp [checkColwr, h, columnStart, h8, hlast, columnsAccesses]

theorem exec_colwr_column (h : s.fbValid = true) (hs : s.surfaceOk) (h8 : off.toNat % 8 = 0)
    (hlast : off.toNat ≤ 31992) :
    exec (.colwr role c m off) s = .next (afterColumns s c [⟨off.toNat, m, role⟩] 0x5#4) :=
  exec_of_columns (i := .colwr role c m off) (checkColwr_column h h8 hlast) hs (by simp [h8, hlast])

end Colwr

/-- The roles in the order of their encodings; 3 is reserved (R95, R100). -/
theorem role_ofBits_eq_ite (b : BitVec 2) : Role.ofBits b =
    if b ≠ 3#2 then some (if b = 0#2 then .single else if b = 1#2 then .edge else .full) else none := by
  revert b
  decide

/-- A word of COLWR's opcode decodes when its must-be-zero bits are 0 and its role is not the reserved one. -/
theorem decode_of_colwr_checked {w : Command} (h : opField w = 0x5#4) : decode w =
    if w.extractLsb' 54 6 = 0#6 ∧ w.extractLsb' 32 16 = 0#16 ∧ roleField w ≠ 3#2 then
      .ok (.colwr (if roleField w = 0#2 then .single else if roleField w = 1#2 then .edge else .full)
        (colorField w) (maskField w) (offsetField w))
    else .error (if w.extractLsb' 54 6 = 0#6 ∧ w.extractLsb' 32 16 = 0#16 then .reservedRole else .mustBeZero) := by
  rw [decode_of_colwr h, role_ofBits_eq_ite]
  by_cases hz : w.extractLsb' 54 6 = 0#6 ∧ w.extractLsb' 32 16 = 0#16
  · by_cases hr : roleField w = 3#2 <;> simp [hz, hr]
  · simp only [hz, ← and_assoc, false_and, if_false]

/-- Settles O23: the three outcomes of the rule's checks in their order, and the words of the opcode. -/
theorem colwrFollowsItsRule : Obligations.ColwrFollowsItsRule := by
  refine ⟨fun s role c m off => ⟨fun h => ?_, fun h hoff => ?_, fun h hs h8 hlast => ?_⟩, fun s w hop => ?_⟩
  · exact exec_of_raise (checkColwr_badSurface h) (by decide)
  · exact exec_of_raise (checkColwr_outOfRange h hoff) (by decide)
  · refine ⟨_, exec_colwr_column h hs h8 hlast, afterColumns_eq_doneWith .., fun i => ?_, fun a ha => ?_⟩
    · rw [afterColumns_wordAt (col := ⟨off.toNat, m, role⟩) (by simp) (by simp), columnWord]
      split_ifs with hr
      · rw [hr, compose_full]
      · rfl
    · exact afterColumns_byteAt (by simpa using ha)
  · exact runWord_of_checked hop (decode_of_colwr_checked hop)

/-- Settles O24: the accesses of the one column write of either kind of role, and none of a raised error. -/
theorem colwrAccessOrder : Obligations.ColwrAccessOrder := by
  intro s w role c m off hd
  unfold commandAccesses
  rw [wordVerdict_of_decode hd]
  dsimp only [verdictOf]
  refine ⟨fun h h8 hlast a ha => ?_, fun h => ?_⟩
  · subst ha
    simp only [checkColwr_column h h8 hlast, Verdict.accesses, columnsAccesses, List.flatMap_singleton]
    split_ifs with hr
    · rw [hr, columnWrite_full]; rfl
    · rw [columnWrite_masked _ _ _ _ hr]; rfl
  · cases hf : s.fbValid with
    | false => rw [checkColwr_badSurface hf]; rfl
    | true => rw [checkColwr_outOfRange hf (h.resolve_left (by simp [hf]))]; rfl

/-- Settles O25: a pixel of the column by the bits of the composed word, any other by the column's frame. -/
theorem colwrPixelEffectMasked : Obligations.ColwrPixelEffectMasked := by
  intro s role c m off hmode h hs h8 hlast
  refine ⟨_, exec_colwr_column h hs h8 hlast, fun x y => ?_⟩
  have hin (hoff : y.val * 160 + x.val / 16 * 8 = off.toNat) (i : Fin 4) :
      (afterColumns s c [⟨off.toNat, m, role⟩] 0x5#4).pixelPlane x y i =
        if role = .full ∨ m.getLsbD (15 - x.val % 16) = true then c.getLsbD i.val else s.pixelPlane x y i :=
    afterColumns_pixelPlane_masked hmode (by simp) List.mem_cons_self hoff i
  refine ⟨fun hoff hmask => pixelColor_eq fun i => ?_, fun hout i => ?_⟩
  · rw [hin hoff, if_pos hmask]
  · by_cases hoff : y.val * 160 + x.val / 16 * 8 = off.toNat
    · obtain ⟨hr, hm⟩ := hout.resolve_left (not_not_intro hoff)
      rw [hin hoff, if_neg (by simp [hr, hm])]
    · exact afterColumns_pixelPlane_other (by simp [h8, hlast]) (by simpa using hoff) i

/-! ## The accesses of column writes, each read and its store (R164, R185, R187) -/

/-- Every read of the list is followed at once by a store to the word it read. -/
def ReadsStoredNext (xs : List Access) : Prop :=
  ∀ (k : Nat) (x : Access), xs[k]? = some x → x.isWrite = false →
    ∃ z, xs[k + 1]? = some z ∧ z.isWrite = true ∧ z.addr = x.addr

theorem ReadsStoredNext.append {xs ys : List Access} (hx : ReadsStoredNext xs) (hy : ReadsStoredNext ys) :
    ReadsStoredNext (xs ++ ys) := by
  intro k x hk hread
  by_cases hlt : k < xs.length
  · rw [List.getElem?_append_left hlt] at hk
    obtain ⟨z, hz, hstore⟩ := hx k x hk hread
    exact ⟨z, List.getElem?_append_left (List.getElem?_eq_some_iff.1 hz).1 ▸ hz, hstore⟩
  · rw [List.getElem?_append_right (by omega)] at hk
    obtain ⟨z, hz, hstore⟩ := hy _ x hk hread
    refine ⟨z, ?_, hstore⟩
    rwa [List.getElem?_append_right (by omega), show k + 1 - xs.length = k - xs.length + 1 by omega]

theorem ReadsStoredNext.flatMap {α : Type} {f : α → List Access} (h : ∀ a, ReadsStoredNext (f a)) (l : List α) :
    ReadsStoredNext (l.flatMap f) := by
  induction l with
  | nil => intro k x hk; cases hk
  | cons a l ih => exact (h a).append ih

theorem readsStoredNext_write (a : Nat) (v : PlaneWord) : ReadsStoredNext [.write a v]
  | 0, _, rfl, hread => by cases hread

theorem readsStoredNext_read_merge (a : Nat) (role : Role) (i : Fin 4) (m c : PlaneWord) :
    ReadsStoredNext [.read a, .merge a role i m c]
  | 0, _, rfl, _ => ⟨_, rfl, rfl, rfl⟩
  | 1, _, rfl, hread => by cases hread

theorem columnWrite_readsStoredNext (s : State) (off : Nat) (m : PlaneWord) (c : Color) (role : Role) :
    ReadsStoredNext (columnWrite s off m c role) := by
  refine .flatMap (fun i => ?_) _
  dsimp only
  split_ifs
  · exact readsStoredNext_write _ _
  · exact readsStoredNext_read_merge _ _ _ _ _

theorem columnsAccesses_readsStoredNext (s : State) (c : Color) (cols : List Column) :
    ReadsStoredNext (columnsAccesses s c cols) :=
  .flatMap (fun _ => columnWrite_readsStoredNext _ _ _ _ _) cols

/-- Settles O31: the accesses of any command are column writes at rising offsets, and each column write is in order. -/
theorem drawboxStoresAtRisingAddresses : Obligations.DrawboxStoresAtRisingAddresses := by
  intro s x1 y1 x2 y2 c ht
  obtain ⟨color, cols, hcols, hsorted, -⟩ :=
    commandAccesses_columns (encode (.drawbox x1 y1 x2 y2 c)) s fun _ => ht
  rw [hcols]
  exact ⟨columnsAccesses_rising s color cols hsorted, columnsAccesses_readsStoredNext s color cols⟩

/-! ## The columns of a box and their pixels (R140 to R143, R182 to R184) -/

/-- The role in which a box writes the column of pixel column `x` (R182 to R184). -/
def boxRole (x1 x2 x : Fin 320) : Role :=
  if x1.val / 16 < x.val / 16 ∧ x.val / 16 < x2.val / 16 then .full
  else if x1.val / 16 = x2.val / 16 then .single
  else .edge

theorem edgeMasks_sm_pixelBit {x1 x : Fin 320} (x2 : Fin 320) (h : x1.val / 16 = x.val / 16) :
    (edgeMasks x1 x2).sm.getLsbD (pixelBit x) = decide (x1.val ≤ x.val) := by
  refine (startMask_getLsbD (intraPixel x1) (intraPixel x)).trans ?_
  simp only [intraPixel, Fin.mk_le_mk, decide_eq_decide]
  omega

theorem edgeMasks_em_pixelBit (x1 : Fin 320) {x2 x : Fin 320} (h : x2.val / 16 = x.val / 16) :
    (edgeMasks x1 x2).em.getLsbD (pixelBit x) = decide (x.val ≤ x2.val) := by
  refine (endMask_getLsbD (intraPixel x2) (intraPixel x)).trans ?_
  simp only [intraPixel, Fin.mk_le_mk, decide_eq_decide]
  omega

theorem edgeMasks_cm (x1 x2 : Fin 320) :
    (edgeMasks x1 x2).cm = (edgeMasks x1 x2).sm &&& (edgeMasks x1 x2).em := rfl

section BoxColumns
variable {s : State} {x1 x2 : Fin 320} {y1 y2 : Fin 200}

/-- A pixel in the rows and the columns of a box is in one column the box writes, under that column's role; its bit of
the column's mask, which FULL ignores, says whether it lies in the box. -/
theorem exists_boxColumn (ht : s.tablesBuilt) (hx : x1 ≤ x2) (hy : y1 < y2) {x : Fin 320} {y : Fin 200}
    (hrow : y1 ≤ y ∧ y ≤ y2) (hcol : x1.val / 16 ≤ x.val / 16 ∧ x.val / 16 ≤ x2.val / 16) :
    ∃ col ∈ boxColumns s x1 x2 y1 y2, y.val * 160 + x.val / 16 * 8 = col.off ∧ col.role = boxRole x1 x2 x ∧
      (col.role ≠ .full → decide (x1.val ≤ x.val ∧ x.val ≤ x2.val) = col.mask.getLsbD (pixelBit x)) := by
  suffices h : ∃ col ∈ scanlineColumns s x1 x2 y, y.val * 160 + x.val / 16 * 8 = col.off ∧
      col.role = boxRole x1 x2 x ∧
      (col.role ≠ .full → decide (x1.val ≤ x.val ∧ x.val ≤ x2.val) = col.mask.getLsbD (pixelBit x)) by
    obtain ⟨col, hmem, h⟩ := h
    exact ⟨col, List.mem_flatMap.2 ⟨y, (mem_boxScanlines hy.le).2 ⟨hy, hrow⟩, hmem⟩, h⟩
  simp only [mem_scanlineColumns ht hx]
  unfold boxRole
  obtain ⟨hlo, hhi⟩ := hcol
  by_cases hsingle : x1.val / 16 = x2.val / 16
  · refine ⟨_, .inl ⟨hsingle, rfl⟩, by dsimp only; omega, ?_, fun _ => ?_⟩
    · rw [if_neg (by omega), if_pos hsingle]
    · rw [edgeMasks_cm, BitVec.getLsbD_and, edgeMasks_sm_pixelBit _ (by omega), edgeMasks_em_pixelBit _ (by omega),
        Bool.decide_and]
  · have hspan : x1.val / 16 < x2.val / 16 := by omega
    by_cases hstart : x1.val / 16 = x.val / 16
    · refine ⟨_, .inr ⟨hspan, .inl rfl⟩, by dsimp only; omega, ?_, fun _ => ?_⟩
      · rw [if_neg (by omega), if_neg hsingle]
      · rw [edgeMasks_sm_pixelBit _ hstart, decide_eq_decide]
        omega
    · by_cases hend : x2.val / 16 = x.val / 16
      · refine ⟨_, .inr ⟨hspan, .inr (.inr rfl)⟩, by dsimp only; omega, ?_, fun _ => ?_⟩
        · rw [if_neg (by omega), if_neg hsingle]
        · rw [edgeMasks_em_pixelBit _ hend, decide_eq_decide]
          omega
      · refine ⟨_, .inr ⟨hspan, .inr (.inl ⟨x.val / 16, by omega, by omega, rfl⟩)⟩, rfl, ?_, fun h => absurd rfl h⟩
        rw [if_pos (by omega)]

/-- A pixel outside the rows or the columns of a box is in no column the box writes. -/
theorem boxColumns_off_ne (ht : s.tablesBuilt) (hx : x1 ≤ x2) (hy : y1 ≤ y2) {x : Fin 320} {y : Fin 200}
    (hout : y < y1 ∨ y2 < y ∨ x.val / 16 < x1.val / 16 ∨ x2.val / 16 < x.val / 16) :
    ∀ col ∈ boxColumns s x1 x2 y1 y2, y.val * 160 + x.val / 16 * 8 ≠ col.off := by
  intro col hcol
  obtain ⟨z, hz, hmem⟩ := List.mem_flatMap.1 hcol
  obtain ⟨k, hlo, hhi, hoff⟩ := scanlineColumns_off ht hx hmem
  obtain ⟨-, hz1, hz2⟩ := (mem_boxScanlines hy).1 hz
  simp only [Fin.lt_def, Fin.le_def] at *
  omega

/-- A DRAWBOX that passes its checks writes the columns of its box. -/
theorem exec_drawbox_columns {u1 v1 u2 v2 : Coord} {c : Color} (hinit : s.initDone = true) (ht : s.tablesBuilt)
    (hf : s.fbValid = true) (hs : s.surfaceOk) (hu1 : u1.toNat = x1.val) (hu2 : u2.toNat = x2.val)
    (hv1 : v1.toNat = y1.val) (hv2 : v2.toNat = y2.val) (hx : x1 ≤ x2) (hy : y1 ≤ y2) :
    exec (.drawbox u1 v1 u2 v2 c) s = .next (afterColumns s c (boxColumns s x1 x2 y1 y2) 0x6#4) :=
  exec_of_columns (i := .drawbox u1 v1 u2 v2 c) (verdictOf_drawbox c hinit hf hu1 hu2 hv1 hv2 hx hy) hs
    fun _ hcol => boxColumns_off ht hx hcol

end BoxColumns

/-- Settles O30: a pixel in a column of the box by that column's role, and any other by the columns' frame. -/
theorem drawboxPerBitLiteral : Obligations.DrawboxPerBitLiteral := by
  intro s x1 y1 x2 y2 c hmode hinit ht hf hs hx hx2 hy hy2
  set p1 : Fin 320 := ⟨x1.toNat, hx.trans_lt hx2⟩
  set p2 : Fin 320 := ⟨x2.toNat, hx2⟩
  set q1 : Fin 200 := ⟨y1.toNat, hy.trans hy2⟩
  set q2 : Fin 200 := ⟨y2.toNat, hy2⟩
  have hp : p1 ≤ p2 := hx
  have hq : q1 < q2 := hy
  have hcols : ∀ col ∈ boxColumns s p1 p2 q1 q2, col.off % 8 = 0 ∧ col.off ≤ 31992 :=
    fun col hcol => boxColumns_off ht hp hcol
  refine ⟨_, exec_drawbox_columns hinit ht hf hs rfl rfl rfl rfl hp hq.le, fun x y i q k inside hold hk hin => ?_,
    fun a ha => afterColumns_byteAt_outside hcols ha⟩
  by_cases hout : y.val < y1.toNat ∨ y2.toNat < y.val ∨ x.val / 16 < x1.toNat / 16 ∨ x2.toNat / 16 < x.val / 16
  · rw [if_pos hout, hold]
    exact afterColumns_pixelPlane_other hcols (boxColumns_off_ne ht hp hq.le hout) i
  · rw [if_neg hout]
    simp only [not_or, not_lt] at hout
    obtain ⟨hr1, hr2, hc1, hc2⟩ := hout
    obtain ⟨col, hcol, hoff, hrole, hmask⟩ := exists_boxColumn ht hp hq ⟨hr1, hr2⟩ ⟨hc1, hc2⟩
    rw [afterColumns_pixelPlane_literal hmode (boxColumns_apart ht hp hq.le) hcol hoff i hold hk
      fun hr => hin.trans (hmask hr), hrole]
    dsimp only [boxRole, p1, p2]
    split_ifs <;> rfl

end Sys2Proof.Proofs
end

section
/-! PROOFS. The rasterizer (43_rasterizer.md): DRAWBOX from what its rule says, one equation per outcome; the columns of
a box, from which its words and, under MASKED, its pixels follow; and how many accesses a command has left to make. -/

namespace Sys2Proof.Proofs

open Sys2Proof.Machine Sys2Proof.Laws

/-! ## The scanlines of a box (R180, R188) -/

/-- Settles O37: the scanlines and their number are those of the list; `y2 - y1 + 1` is at least 2 when `y1 < y2`. -/
theorem boxScanlineCount : Obligations.BoxScanlineCount := by
  intro y1 y2 h
  refine ⟨fun y => mem_boxScanlines h, boxScanlines_length y1 y2, ?_⟩
  rw [boxScanlines_length]
  split_ifs with heq
  · exact Nat.zero_ne_one
  · have := Fin.lt_def.1 (h.lt_of_ne heq)
    omega

/-! ## The checks of DRAWBOX in their order (R186, R217) -/

/-- A word that decodes to no command makes no access (R213, R218). -/
theorem commandAccesses_of_error {w : Command} {r : Reject} (h : decode w = .error r) (s : State) :
    commandAccesses w s = [] := by simp only [commandAccesses, wordVerdict, h, Verdict.accesses]

/-- A word whose instruction raises an error makes no access and leaves the state `failedWith` names (R218). -/
theorem failure_of_raise {w : Command} {i : Instr} {s : State} {e : ErrCode} (hd : decode w = .ok i)
    (h : verdictOf i s = .raise e) (he : e ≠ .ok) :
    commandAccesses w s = [] ∧ exec i s = .next (s.failedWith i.opcode e) := by
  refine ⟨?_, exec_of_raise h he⟩
  rw [commandAccesses, wordVerdict_of_decode hd, h, Verdict.accesses]

section Checks
variable {s : State} {x1 y1 x2 y2 : Coord} {c : Color}

theorem checkDrawbox_notInitialised (hi : s.initDone = false) :
    checkDrawbox x1 y1 x2 y2 c s = .raise .notInitialised := if_pos hi

theorem checkDrawbox_badSurface (hi : s.initDone = true) (hf : s.fbValid = false) :
    checkDrawbox x1 y1 x2 y2 c s = .raise .badSurface := by simp [checkDrawbox, hi, hf]

theorem checkDrawbox_outOfRange (hi : s.initDone = true) (hf : s.fbValid = true)
    (h : 320 ≤ x1.toNat ∨ 320 ≤ x2.toNat ∨ 200 ≤ y1.toNat ∨ 200 ≤ y2.toNat) :
    checkDrawbox x1 y1 x2 y2 c s = .raise .outOfRange := by
  obtain h | h | h | h := h
  · simp [checkDrawbox, hi, hf, pixelX_none.2 h]
  · simp [checkDrawbox, hi, hf, pixelX_none.2 h]
  · simp [checkDrawbox, hi, hf, pixelY_none.2 h]
  · simp [checkDrawbox, hi, hf, pixelY_none.2 h]

theorem checkDrawbox_invalidGeometry {p1 p2 : Fin 320} {q1 q2 : Fin 200} (hi : s.initDone = true)
    (hf : s.fbValid = true) (hx1 : x1.toNat = p1.val) (hx2 : x2.toNat = p2.val) (hy1 : y1.toNat = q1.val)
    (hy2 : y2.toNat = q2.val) (h : p2 < p1 ∨ q2 < q1) :
    checkDrawbox x1 y1 x2 y2 c s = .raise .invalidGeometry := by
  simp [checkDrawbox, hi, hf, pixelX_some.2 hx1, pixelX_some.2 hx2, pixelY_some.2 hy1, pixelY_some.2 hy2, h]

end Checks

/-- Settles O26: the words of the opcode, and one equation of `checkDrawbox` for each error. -/
theorem drawboxReportsErrorsInOrder : Obligations.DrawboxReportsErrorsInOrder := by
  refine ⟨fun s w hop => ⟨fun hz => ?_, runWord_of_checked hop (decode_of_drawbox hop)⟩,
    fun s w x1 y1 x2 y2 c hd => ⟨fun hi => ?_, fun hi hf => ?_, fun hi hf h => ?_,
      fun hi hf hx1 hx2 hy1 hy2 h => ?_⟩⟩
  · exact commandAccesses_of_error ((decode_of_drawbox hop).trans (if_neg hz)) s
  · exact failure_of_raise hd (checkDrawbox_notInitialised hi) (by decide)
  · exact failure_of_raise hd (checkDrawbox_badSurface hi hf) (by decide)
  · exact failure_of_raise hd (checkDrawbox_outOfRange hi hf h) (by decide)
  · exact failure_of_raise hd (checkDrawbox_invalidGeometry (p1 := ⟨_, hx1⟩) (p2 := ⟨_, hx2⟩) (q1 := ⟨_, hy1⟩)
      (q2 := ⟨_, hy2⟩) hi hf rfl rfl rfl rfl h) (by decide)

/-- A box of one scanline has no column (R180). -/
theorem boxColumns_one_row (s : State) (x1 x2 : Fin 320) (y : Fin 200) : boxColumns s x1 x2 y y = [] := by
  simp [boxColumns, boxScanlines]

/-- Settles O27: the checks pass and there is no column to write. -/
theorem drawboxOfOneRowDrawsNothing : Obligations.DrawboxOfOneRowDrawsNothing := by
  intro s x1 y x2 c hi hf hx hx2 hy
  have h := verdictOf_drawbox (p1 := ⟨x1.toNat, hx.trans_lt hx2⟩) (p2 := ⟨x2.toNat, hx2⟩) (q1 := ⟨y.toNat, hy⟩)
    (q2 := ⟨y.toNat, hy⟩) c hi hf rfl rfl rfl rfl hx le_rfl
  rw [boxColumns_one_row] at h
  exact exec_of_register h

/-! ## The words of a box (R182 to R184) -/

/-- The write a box makes to the column of index `k` on scanline `y` (R182 to R184). -/
def boxColumn (x1 x2 : Fin 320) (y k : Nat) : Column :=
  if x1.val / 16 = x2.val / 16 then ⟨y * 160 + k * 8, (edgeMasks x1 x2).cm, .single⟩
  else if k = x1.val / 16 then ⟨y * 160 + k * 8, (edgeMasks x1 x2).sm, .edge⟩
  else if k = x2.val / 16 then ⟨y * 160 + k * 8, (edgeMasks x1 x2).em, .edge⟩
  else ⟨y * 160 + k * 8, 0#16, .full⟩

theorem boxColumn_off (x1 x2 : Fin 320) (y k : Nat) : (boxColumn x1 x2 y k).off = y * 160 + k * 8 := by
  unfold boxColumn
  split_ifs <;> rfl

section BoxWords
variable {s : State} {x1 x2 : Fin 320} {y1 y2 : Fin 200}

/-- A box writes each of its columns on each of its scanlines. -/
theorem boxColumn_mem (ht : s.tablesBuilt) (hx : x1 ≤ x2) (hy : y1 < y2) {y : Fin 200} (hrow : y1 ≤ y ∧ y ≤ y2)
    {k : Nat} (hlo : x1.val / 16 ≤ k) (hhi : k ≤ x2.val / 16) :
    boxColumn x1 x2 y k ∈ boxColumns s x1 x2 y1 y2 := by
  refine List.mem_flatMap.2 ⟨y, (mem_boxScanlines hy.le).2 ⟨hy, hrow⟩, (mem_scanlineColumns ht hx).2 ?_⟩
  unfold boxColumn
  split_ifs with hsingle hstart hend
  · exact .inl ⟨hsingle, by rw [show k = x1.val / 16 by omega]⟩
  · exact .inr ⟨by omega, .inl (by rw [hstart])⟩
  · exact .inr ⟨by omega, .inr (.inr (by rw [hend]))⟩
  · exact .inr ⟨by omega, .inr (.inl ⟨k, by omega, by omega, rfl⟩)⟩

/-- Every column a box writes is one of its columns, on one of its scanlines. -/
theorem boxColumns_off_eq (ht : s.tablesBuilt) (hx : x1 ≤ x2) (hy : y1 ≤ y2) {col : Column}
    (h : col ∈ boxColumns s x1 x2 y1 y2) :
    ∃ y k : Nat, y1.val ≤ y ∧ y ≤ y2.val ∧ x1.val / 16 ≤ k ∧ k ≤ x2.val / 16 ∧ col.off = y * 160 + k * 8 := by
  obtain ⟨y, hmem, hcol⟩ := List.mem_flatMap.1 h
  obtain ⟨-, hlo, hhi⟩ := (mem_boxScanlines hy).1 hmem
  obtain ⟨k, hk⟩ := scanlineColumns_off ht hx hcol
  exact ⟨y, k, hlo, hhi, hk⟩

end BoxWords

/-- The corners of a box of pixels, as pixels. -/
theorem exists_box {x1 y1 x2 y2 : Coord} (hx : x1.toNat ≤ x2.toNat) (hx2 : x2.toNat < 320)
    (hy : y1.toNat < y2.toNat) (hy2 : y2.toNat < 200) :
    ∃ (p1 p2 : Fin 320) (q1 q2 : Fin 200), p1 ≤ p2 ∧ q1 < q2 ∧ x1.toNat = p1.val ∧ x2.toNat = p2.val ∧
      y1.toNat = q1.val ∧ y2.toNat = q2.val :=
  ⟨⟨_, hx.trans_lt hx2⟩, ⟨_, hx2⟩, ⟨_, hy.trans hy2⟩, ⟨_, hy2⟩, hx, hy, rfl, rfl, rfl, rfl⟩

/-- Settles O28: each column of the box is written once, so its words are what its own column write composes. -/
theorem drawboxWritesItsColumns : Obligations.DrawboxWritesItsColumns := by
  intro s x1 y1 x2 y2 c hi ht hf hs hx hx2 hy hy2
  obtain ⟨p1, p2, q1, q2, hp, hq, e1, e2, e3, e4⟩ := exists_box hx hx2 hy hy2
  rw [e1, e2, e3, e4]
  refine ⟨_, exec_drawbox_columns hi ht hf hs e1 e2 e3 e4 hp hq.le, afterColumns_eq_doneWith .., ?_, ?_⟩
  · intro y k i hlo hhi hstart hend a sm em old pattern ha hsm hem hold hpattern
    have hmem : boxColumn p1 p2 y k ∈ boxColumns s p1 p2 q1 q2 :=
      boxColumn_mem ht hp hq (y := ⟨y, hhi.trans_lt q2.isLt⟩) ⟨hlo, hhi⟩ hstart hend
    have haddr : a = s.fbBase.toNat + (boxColumn p1 p2 y k).off + 2 * i.val := by rw [boxColumn_off, ha]; omega
    rw [haddr, afterColumns_wordAt (boxColumns_apart ht hp hq.le) hmem, ← haddr, ← hold, columnWord, ← hpattern,
      hsm, hem]
    unfold boxColumn
    split_ifs
    · rfl
    · rfl
    · rfl
    · exact compose_full ..
  · intro a hout
    refine afterColumns_byteAt fun col hcol => ?_
    obtain ⟨y, k, hlo, hhi, hstart, hend, hoff⟩ := boxColumns_off_eq ht hp hq.le hcol
    have := hout y k hlo hhi hstart hend
    omega

/-! ## The pixels of a box under MASKED (R189) -/

theorem boxRole_eq_full_iff {x1 x2 x : Fin 320} :
    boxRole x1 x2 x = .full ↔ x1.val / 16 < x.val / 16 ∧ x.val / 16 < x2.val / 16 := by
  unfold boxRole
  split_ifs with h <;> simp [h]

/-- Under MASKED the pixels of the box take the colour, and every other pixel keeps its plane bits. -/
theorem boxColumns_pixelPlane_masked {s : State} {x1 x2 : Fin 320} {y1 y2 : Fin 200}
    (hmode : s.params.edgeMode = .masked) (ht : s.tablesBuilt) (hx : x1 ≤ x2) (hy : y1 < y2) (c : Color)
    (op : Opcode) (x : Fin 320) (y : Fin 200) (i : Fin 4) :
    (afterColumns s c (boxColumns s x1 x2 y1 y2) op).pixelPlane x y i =
      if x1.val ≤ x.val ∧ x.val ≤ x2.val ∧ y1.val ≤ y.val ∧ y.val ≤ y2.val then c.getLsbD i.val
      else s.pixelPlane x y i := by
  by_cases hout : y < y1 ∨ y2 < y ∨ x.val / 16 < x1.val / 16 ∨ x2.val / 16 < x.val / 16
  · rw [afterColumns_pixelPlane_other (fun _ => boxColumns_off ht hx) (boxColumns_off_ne ht hx hy.le hout), if_neg]
    simp only [Fin.lt_def] at hout
    omega
  · simp only [not_or, not_lt] at hout
    obtain ⟨hr1, hr2, hc1, hc2⟩ := hout
    obtain ⟨col, hcol, hoff, hrole, hmask⟩ := exists_boxColumn ht hx hy ⟨hr1, hr2⟩ ⟨hc1, hc2⟩
    have hinside : (col.role = .full ∨ col.mask.getLsbD (pixelBit x) = true) ↔
        x1.val ≤ x.val ∧ x.val ≤ x2.val ∧ y1.val ≤ y.val ∧ y.val ≤ y2.val := by
      simp only [Fin.le_def] at hr1 hr2
      by_cases hfull : col.role = .full
      · have := boxRole_eq_full_iff.1 (hrole.symm.trans hfull)
        simp only [hfull, true_or, true_iff]
        omega
      · simp only [hfull, false_or, ← hmask hfull, decide_eq_true_eq]
        omega
    simp only [afterColumns_pixelPlane_masked hmode (boxColumns_apart ht hx hy.le) hcol hoff, hinside]

/-- Settles O29: a pixel has the colour when its plane bits are the colour's, and no column leaves the framebuffer. -/
theorem drawboxFillsExactlyTheBoxMasked : Obligations.DrawboxFillsExactlyTheBoxMasked := by
  intro s x1 y1 x2 y2 c hmode hi ht hf hs hx hx2 hy hy2
  obtain ⟨p1, p2, q1, q2, hp, hq, e1, e2, e3, e4⟩ := exists_box hx hx2 hy hy2
  rw [e1, e2, e3, e4]
  refine ⟨_, exec_drawbox_columns hi ht hf hs e1 e2 e3 e4 hp hq.le, fun x y => ?_,
    fun a ha => afterColumns_byteAt_outside (fun _ => boxColumns_off ht hp) ha⟩
  have hpixel := boxColumns_pixelPlane_masked hmode ht hp hq c 0x6#4 x y
  split_ifs with hin
  · exact pixelColor_eq fun i => (hpixel i).trans (if_pos hin)
  · exact fun i => (hpixel i).trans (if_neg hin)

/-! ## The accesses a command has left (R191, R251, R252) -/

/-- The accesses of one scanline: 8 of a single column, else 8 of either edge column and 4 of each between (R251). -/
theorem scanlineWrites_length (s : State) (x1 x2 : Fin 320) (c : Color) (y : Fin 200) :
    (scanlineWrites s x1 x2 c y).length =
      if (edgeMasks x1 x2).wc = 0 then 8 else 16 + 4 * ((edgeMasks x1 x2).wc - 1) := by
  unfold scanlineWrites
  dsimp only
  split_ifs
  · simp [columnWrite_length]
  · simp only [List.length_append, columnWrite_length, List.length_flatMap, List.map_const', List.length_range,
      List.sum_replicate, smul_eq_mul, reduceCtorEq, if_true, if_false]
    omega

/-- The accesses of a box, as many on each of its scanlines (R251). -/
theorem boxWrites_length (s : State) (x1 x2 : Fin 320) (c : Color) (y1 y2 : Fin 200) :
    (columnsAccesses s c (boxColumns s x1 x2 y1 y2)).length = (boxScanlines y1 y2).length *
      if (edgeMasks x1 x2).wc = 0 then 8 else 16 + 4 * ((edgeMasks x1 x2).wc - 1) := by
  rw [← boxWrites_eq, List.length_flatMap]
  simp only [scanlineWrites_length, List.map_const', List.sum_replicate, smul_eq_mul]

/-- No box has more accesses than that of the whole screen: 200 scanlines, 18 columns between the edges (R191). -/
theorem boxWrites_length_le (s : State) (x1 x2 : Fin 320) (c : Color) (y1 y2 : Fin 200) :
    (columnsAccesses s c (boxColumns s x1 x2 y1 y2)).length ≤ 17600 := by
  have hrows : (boxScanlines y1 y2).length ≤ 200 := by
    rw [boxScanlines_length]
    split_ifs <;> omega
  have hrow : (if (edgeMasks x1 x2).wc = 0 then 8 else 16 + 4 * ((edgeMasks x1 x2).wc - 1)) ≤ 88 := by
    rw [edgeMasks_wc]
    split_ifs <;> omega
  calc (columnsAccesses s c (boxColumns s x1 x2 y1 y2)).length
    _ = _ := boxWrites_length s x1 x2 c y1 y2
    _ ≤ 200 * 88 := Nat.mul_le_mul hrows hrow

/-- COLWR makes the accesses of one column write, or none. -/
theorem checkColwr_accesses_length_le (role : Role) (c : Color) (m : PlaneWord) (off : BitVec 16) (s : State) :
    (checkColwr role c m off s).accesses.length ≤ 8 := by
  unfold checkColwr
  split_ifs
  · exact Nat.zero_le 8
  · rw [Verdict.accesses, columnWrite_length]
    split_ifs <;> decide
  · exact Nat.zero_le 8

/-- Only COLWR and DRAWBOX make accesses (R59). -/
theorem verdictOf_accesses_nil {i : Instr} (h5 : i.opcode ≠ 0x5#4) (h6 : i.opcode ≠ 0x6#4) (s : State) :
    (verdictOf i s).accesses = [] := by
  obtain ⟨e, hv, -⟩ | ⟨xs, eff, hv, -, -, -, -, hm⟩ := verdictOf_cases i s <;> rw [hv, Verdict.accesses]
  by_contra hne
  exact (hm hne).elim h5 h6

/-- No word makes more accesses than the box of the whole screen (R251). -/
theorem commandAccesses_length_le (w : Command) (s : State) : (commandAccesses w s).length ≤ 17600 := by
  cases hd : decode w with
  | error r => rw [commandAccesses_of_error hd]; exact Nat.zero_le _
  | ok i =>
    rw [commandAccesses, wordVerdict_of_decode hd]
    cases i with
    | colwr role c m off => exact (checkColwr_accesses_length_le role c m off s).trans (by decide)
    | drawbox x1 y1 x2 y2 c =>
      obtain h | ⟨p1, p2, q1, q2, -, -, -, -, -, -, -, -, h⟩ := drawbox_accesses s x1 y1 x2 y2 c <;> rw [h]
      · exact Nat.zero_le _
      · exact boxWrites_length_le s p1 p2 c q1 q2
    | _ =>
      rw [verdictOf_accesses_nil (by simp [Instr.opcode]) (by simp [Instr.opcode])]
      exact Nat.zero_le _

/-- Under the invariant a command with `n` accesses left is done after those and its end (R43, R219). -/
theorem runEngine_completes (n : Nat) {s : State} {r : Running} (h : s.Inv) (hr : s.engine = .running r)
    (hn : n + r.done = (commandAccesses r.word s).length) :
    ∃ t, runEngine (n + 1) s = .next t ∧ t.engine = .idle := by
  induction n generalizing s r with
  | zero =>
    have hlast : (commandAccesses r.word s)[r.done]? = none := List.getElem?_eq_none (by omega)
    have hstep := (stepEngine_of_running hr).trans (stepRunning_of_end hlast)
    exact ⟨_, runEngine_succ hstep, endOf_engine _ _ _⟩
  | succ n ih =>
    have hlt : r.done < (commandAccesses r.word s).length := by omega
    have hport := commandAccesses_port h r.word _ (List.getElem_mem hlt)
    have hstep := (stepEngine_of_running hr).trans
      (stepRunning_of_access (List.getElem?_eq_getElem hlt) hport rfl)
    rw [runEngine_succ hstep]
    refine ih (stepEngine_inv h hstep) rfl ?_
    calc n + (r.done + 1)
      _ = (commandAccesses r.word s).length := by omega
      _ = _ := congrArg _ (commandAccesses_of_sameChecks (SameRegs.update s _ _ _ _ _).toSameChecks r.word)

/-- Settles O53: one step for each access that is left and one for the end; no word makes more than 17600 accesses. -/
theorem runningCommandsComplete : Obligations.RunningCommandsComplete := by
  intro s r h hr
  have hdone := done_le_of_inv h r hr
  have hmax := commandAccesses_length_le r.word s
  obtain ⟨t, hrun, hidle⟩ :=
    runEngine_completes ((commandAccesses r.word s).length - r.done) h hr (Nat.sub_add_cancel hdone)
  exact ⟨_, t, by omega, by omega, hrun, hidle⟩

end Sys2Proof.Proofs
end

section
/-! PROOFS. Surface control (44_surface_control.md): SETFB from what its rule says, one equation per outcome. -/

namespace Sys2Proof.Proofs

open Sys2Proof.Machine Sys2Proof.Laws

/-! ## SETFB (R200) -/

section Setfb
variable {s : State} {base : BitVec 32}

theorem checkSetfb_surface (h : base.toNat % 2 = 0 ∧ base.toNat + 32000 ≤ 2 ^ s.params.addrW.val) :
    checkSetfb base s = .proceed [] (.surface base) := if_pos (surfaceFits_iff.2 h)

theorem checkSetfb_badSurface (h : base.toNat % 2 ≠ 0 ∨ 2 ^ s.params.addrW.val < base.toNat + 32000) :
    checkSetfb base s = .raise .badSurface := by
  refine if_neg fun hfits => ?_
  obtain ⟨heven, hle⟩ := surfaceFits_iff.1 hfits
  obtain hodd | hlt := h
  · exact hodd heven
  · exact not_lt.2 hle hlt

/-- SETFB checks its operand, and never reaches memory (R200). -/
theorem checkSetfb_accesses : (checkSetfb base s).accesses = [] := by
  unfold checkSetfb
  split
  · rfl
  · rfl

/-- SETFB of a base whose framebuffer lies in the space: the base taken, FB_VALID set, the command completed. -/
theorem exec_setfb_surface (h : base.toNat % 2 = 0 ∧ base.toNat + 32000 ≤ 2 ^ s.params.addrW.val) :
    exec (.setfb base) s = .next ({ s with fbBase := base, fbValid := true }.doneWith 0x2#4) :=
  exec_of_register (i := .setfb base) (checkSetfb_surface h)

end Setfb

/-- Settles O19: the two outcomes of the rule's one check, and the words of the opcode. -/
theorem setfbFollowsItsRule : Obligations.SetfbFollowsItsRule := by
  refine ⟨fun s base => ⟨exec_setfb_surface, fun h => ?_⟩, fun s w hop => ⟨?_, ?_⟩⟩
  · exact exec_of_raise (checkSetfb_badSurface h) (by decide)
  · exact commandAccesses_of_checked (decode_of_setfb hop) checkSetfb_accesses
  · exact runWord_of_checked hop (decode_of_setfb hop)

end Sys2Proof.Proofs
end

section
/-! PROOFS. Errors (60_exceptions.md): a word that ends with an error is one whose rule raised it. -/

namespace Sys2Proof.Proofs

open Sys2Proof.Machine Sys2Proof.Laws

/-- A word ends with an error only when its rule raises that error (R216): its accesses and its register writes come
only with OK. -/
theorem wordVerdict_of_runWord_err {w : Command} {s t : State} (h : runWord w s = .next t) (he : t.err ≠ .ok) :
    wordVerdict w s = .raise t.err ∧ t = s.finish (opField w) t.err := by
  rw [runWord_eq_runCommand] at h
  obtain ⟨e, hv, hrun⟩ | ⟨xs, eff, -, -, hrun⟩ | ⟨xs, eff, -, -, hrun⟩ :=
    runCommand_cases (opField w) (wordVerdict w s) s <;> rw [hrun] at h
  · cases h
    exact ⟨hv, rfl⟩
  · cases h
    exact absurd rfl he
  · cases h

/-- Settles O44: a raised error makes no access, and its completion update is `failedWith` (R218). -/
theorem failedCommandsChangeOnlyStatus : Obligations.FailedCommandsChangeOnlyStatus := by
  intro s t w h he
  obtain ⟨hv, ht⟩ := wordVerdict_of_runWord_err h he
  refine ⟨?_, ht.trans (finish_eq_failedWith s (opField w) he)⟩
  rw [commandAccesses, hv, Verdict.accesses]

end Sys2Proof.Proofs
end

section
/-! PROOFS. Reset and hazards (70_reset_and_hazards.md): what PBAT does between reset and the end of the boot sequence,
what a reset that lands in a command leaves, and how many accesses each command makes. -/

namespace Sys2Proof.Proofs

open Sys2Proof.Machine Sys2Proof.Laws

/-! ## The first command after reset (R243) -/

/-- Settles O15: EMASK checks no flag; the other three find INIT_DONE or FB_VALID at its reset value 0. -/
theorem commandsAfterReset : Obligations.CommandsAfterReset := by
  intro p n
  refine ⟨fun x1 x2 h h2 => ?_, fun x y => ?_, fun x1 y1 x2 y2 c => ?_, fun role c m off => ?_⟩
  · exact ⟨_, exec_emask_span (p1 := ⟨x1.toNat, h.trans_lt h2⟩) (p2 := ⟨x2.toNat, h2⟩) rfl rfl h, rfl⟩
  · exact exec_of_raise (i := .xlate x y) (checkXlate_notInitialised rfl) (by decide)
  · exact exec_of_raise (i := .drawbox x1 y1 x2 y2 c) (checkDrawbox_notInitialised rfl) (by decide)
  · exact exec_of_raise (i := .colwr role c m off) (checkColwr_badSurface rfl) (by decide)

/-! ## The boot sequence (R244) -/

/-- The invariant holds after every run that answers. -/
theorem run_inv (n : Nat) {s t : State} (h : s.Inv) (ht : Host.Core.run Sys2Proof.core n s = .next t) : t.Inv := by
  induction n generalizing s with
  | zero => cases ht; exact h
  | succ n ih =>
    simp only [Host.Core.run] at ht
    split at ht
    · next u hu => exact ih (stepKeepsTheInvariant s u h hu) ht
    · cases ht
    · cases ht

/-- An idle engine runs an instruction's word as that instruction. -/
theorem step_command_encode {s : State} {i : Instr} {rest : List Input} (hidle : s.engine = .idle)
    (hin : s.inputs = .command (encode i) :: rest) : step s = exec i { s with inputs := rest } :=
  stepRunsDecodedCommand s _ rest i hidle hin (decodeOfEncodeIsIdentity i)

/-- Two commands submitted to an idle engine run one after the other. -/
theorem run_two_commands {s t u : State} {i j : Instr} (hidle : s.engine = .idle)
    (hin : s.inputs = [.command (encode i), .command (encode j)])
    (ht : exec i { s with inputs := [.command (encode j)] } = .next t) (htidle : t.engine = .idle)
    (htin : t.inputs = [.command (encode j)]) (hu : exec j { t with inputs := [] } = .next u) :
    Host.Core.run Sys2Proof.core 2 s = .next u := by
  rw [run_succ_of_step ((step_command_encode hidle hin).trans ht),
    run_succ_of_step ((step_command_encode htidle htin).trans hu)]
  rfl

/-- Settles O16: each order runs INIT and SETFB as their equations say, and the invariant, true at reset, is kept. -/
theorem bootSequenceMakesTheMachineReady : Obligations.BootSequenceMakesTheMachineReady := by
  intro p n base heven hfits boot hboot
  have hinv : State.Inv { State.resetWith p n with inputs := boot } :=
    inv_of_sameEngine (resetWith_inv p n) ⟨rfl, rfl, rfl, rfl, rfl, rfl⟩ rfl (memoryFits_of_inv (resetWith_inv p n))
  obtain rfl | rfl := hboot
  · have hrun := run_two_commands (s := { State.resetWith p n with inputs := _ }) rfl rfl (exec_init _) rfl rfl
      (exec_setfb_surface ⟨heven, hfits⟩)
    exact ⟨_, hrun, rfl, rfl, ⟨rfl, rfl⟩, rfl, rfl, rfl, rfl, run_inv 2 hinv hrun⟩
  · have hrun := run_two_commands (s := { State.resetWith p n with inputs := _ }) rfl rfl
      (exec_setfb_surface ⟨heven, hfits⟩) rfl rfl (exec_init _)
    exact ⟨_, hrun, rfl, rfl, ⟨rfl, rfl⟩, rfl, rfl, rfl, rfl, run_inv 2 hinv hrun⟩

/-! ## Reset during a command (R241) -/

/-- Settles O55: the engine has made its first `k` accesses, and reset keeps the memory they left. -/
theorem resetDuringACommandKeepsItsAccesses : Obligations.ResetDuringACommandKeepsItsAccesses := by
  intro s w k rest h _ hk
  obtain ⟨u, hstep, hidle, hstatus, -, -, -, -, -, -, hmem, hin, -⟩ :=
    resetGivesTheResetValues { afterAccesses s w k with inputs := .reset :: rest } rest rfl
  exact ⟨_, u, runEngine_accept_of_inv h hk, hstep, hmem, hidle, hstatus, hin⟩

/-! ## The number of accesses (R251) -/

/-- The accesses of an instruction's word are those its rule says. -/
theorem commandAccesses_encode (i : Instr) (s : State) :
    commandAccesses (encode i) s = (verdictOf i s).accesses := by
  rw [commandAccesses, wordVerdict_of_decode (decodeOfEncodeIsIdentity i)]

/-- The accesses of a COLWR that passes its checks: 4 under FULL, else 8. -/
theorem colwr_accesses_length {s : State} {role : Role} {c : Color} {m : PlaneWord} {off : BitVec 16}
    (h : s.fbValid = true) (h8 : off.toNat % 8 = 0) (hlast : off.toNat ≤ 31992) :
    (commandAccesses (encode (.colwr role c m off)) s).length = if role = .full then 4 else 8 := by
  rw [commandAccesses_encode, verdictOf, checkColwr_column h h8 hlast, Verdict.accesses, columnsAccesses,
    List.flatMap_singleton, columnWrite_length]

/-- The accesses of a DRAWBOX that passes its checks: none on one scanline, else as many on each of its scanlines. -/
theorem drawbox_accesses_length {s : State} {x1 y1 x2 y2 : Coord} (c : Color) (hi : s.initDone = true)
    (hf : s.fbValid = true) (hx : x1.toNat ≤ x2.toNat) (hx2 : x2.toNat < 320) (hy : y1.toNat ≤ y2.toNat)
    (hy2 : y2.toNat < 200) :
    (commandAccesses (encode (.drawbox x1 y1 x2 y2 c)) s).length =
      (if y1 = y2 then 0 else y2.toNat - y1.toNat + 1) *
        if x2.toNat / 16 - x1.toNat / 16 = 0 then 8 else 16 + 4 * (x2.toNat / 16 - x1.toNat / 16 - 1) := by
  rw [commandAccesses_encode, verdictOf_drawbox (p1 := ⟨x1.toNat, hx.trans_lt hx2⟩) (p2 := ⟨x2.toNat, hx2⟩)
    (q1 := ⟨y1.toNat, hy.trans_lt hy2⟩) (q2 := ⟨y2.toNat, hy2⟩) c hi hf rfl rfl rfl rfl hx hy, Verdict.accesses,
    boxWrites_length, boxScanlines_length,
    if_congr (Fin.mk_eq_mk.trans BitVec.toNat_inj) rfl rfl, edgeMasks_wc]

/-- Settles O32: a failed word makes none; the others are counted from what their rules say. -/
theorem accessCounts : Obligations.AccessCounts := by
  intro s
  refine ⟨fun w t hrun herr => (failedCommandsChangeOnlyStatus s t w hrun herr).1, ?_, fun base => ?_, fun x y => ?_,
    fun x1 x2 => ?_, fun role c m off => colwr_accesses_length,
    fun x1 y1 x2 y2 c wc hi hf hx hx2 hy hy2 hwc => ?_, fun w => commandAccesses_length_le w s⟩
  · exact commandAccesses_encode .init s
  · exact (commandAccesses_encode (.setfb base) s).trans checkSetfb_accesses
  · exact (commandAccesses_encode (.xlate x y) s).trans checkXlate_accesses
  · exact (commandAccesses_encode (.emask x1 x2) s).trans checkEmask_accesses
  · rw [drawbox_accesses_length c hi hf hx hx2 hy hy2, ← hwc, ite_mul, Nat.zero_mul, mul_ite]

end Sys2Proof.Proofs
end

section
/-! PROOFS. The bytes a canonical memory lists (20_memory.md section 1), and the decode vectors (95_test_vectors.md
section 3). -/

namespace Sys2Proof.Proofs

open Sys2Proof.Machine Sys2Proof.Laws

/-! ## The bytes a canonical memory lists (log entry 5) -/

/-- A memory whose addresses strictly rise lists each address once, so what it lists is what it reads as. -/
theorem readByte_of_mem {m : Memory} (h : m.Pairwise fun c d => c.1 < d.1) {c : Host.Cell} (hc : c ∈ m) :
    Memory.readByte m c.1 = c.2 := by
  induction m with
  | nil => exact absurd hc List.not_mem_nil
  | cons d m ih =>
    obtain ⟨hd, hm⟩ := List.pairwise_cons.1 h
    obtain rfl | hc := List.mem_cons.1 hc
    · exact readByte_head c m
    · rw [readByte_cons, if_neg (hd c hc).ne, ih hm hc]

/-- What reads as something else than an unlisted byte is listed, in canonical form or not. -/
theorem mem_of_readByte {m : Memory} {c : Host.Cell} (h : Memory.readByte m c.1 = c.2) (hc : c.2 ≠ unlistedByte) :
    c ∈ m := by
  induction m with
  | nil => exact absurd h.symm hc
  | cons d m ih =>
    rw [readByte_cons] at h
    split at h
    · next hd => exact List.mem_cons.2 (.inl (Prod.ext hd.symm h.symm))
    · exact List.mem_cons_of_mem d (ih h)

/-- A canonical memory lists exactly the bytes it reads as, but for those an unlisted address reads as. -/
theorem mem_iff_readByte {m : Memory} (h : Memory.wf m) {c : Host.Cell} :
    c ∈ m ↔ Memory.readByte m c.1 = c.2 ∧ c.2 ≠ unlistedByte :=
  ⟨fun hc => ⟨readByte_of_mem h.1 hc, h.2 c hc⟩, fun ⟨hr, hc⟩ => mem_of_readByte hr hc⟩

/-- Settles O41: the reads say which bytes are listed, and rising addresses say in what order. -/
theorem canonicalMemoriesAreEqualWhenTheyReadEqual : Obligations.CanonicalMemoriesAreEqualWhenTheyReadEqual := by
  intro m n hm hn hread
  refine List.Pairwise.eq_of_mem_iff (r := InvImage (· < ·) Prod.fst) hm.1 hn.1 fun c => ?_
  rw [mem_iff_readByte hm, mem_iff_readByte hn, hread]

/-! ## The decode vectors (R92 to R102) -/

/-- Settles O6: eleven closed facts; the decoder is run on each word. -/
theorem specWordsDecode : Obligations.SpecWordsDecode := by
  unfold Obligations.SpecWordsDecode
  decide

end Sys2Proof.Proofs
end
